-- ==== Sys2Proof/Word.lean ====
section
/-! DEFINITION. The block's data types: the octet and the 32-bit host word (00_scope.md R8: all values unsigned, bit 0 least significant). -/
namespace Sys2Proof

/-- `u8` of R8: every datum the block handles is one octet (R51). -/
abbrev Byte := BitVec 8

/-- The host's 32-bit request and response words (R77). -/
abbrev Word := BitVec 32

end Sys2Proof
end

