-- ==== Sys2Proof/Config.lean ====
section
/-! DEFINITION. What is fixed when the block is built (00_scope.md R5, 10_state.md R20), and the free value. -/
namespace Sys2Proof

/-- The five control octets, which the spec leaves OPEN as parameters (R5, D1). -/
structure ControlOctets where
  /-- `START`: marks the start of a frame. -/
  startOctet : Byte
  /-- `END`: the frame delimiter and flush primer. -/
  endOctet : Byte
  /-- `ESC`: opens a two-octet escape sequence. -/
  escOctet : Byte
  /-- `ESC_END`: the substitute code for a literal `END`. -/
  escEnd : Byte
  /-- `ESC_ESC`: the substitute code for a literal `ESC`. -/
  escEsc : Byte
  deriving DecidableEq, Repr

/-- The open parameters of R5: the control octets and the number of encoder engines. -/
structure Config where
  octets : ControlOctets
  /-- `N_ENC`. -/
  nEnc : Nat
  deriving DecidableEq, Repr

namespace Config

/-- `MAX_PAYLOAD` (R5): the largest payload length the encoder accepts. -/
def maxPayload : Nat := 128

/-- `IBUF_CAP` (R5). -/
def ibufCap : Nat := 128

/-- `OBUF_CAP` (R5). -/
def obufCap : Nat := 255

/-- `CHK_MASK` (R5): seven bits. -/
def chkMask : Byte := 0x7F#8

/-- The reference configuration `REF` of R5: the spec's own choice for its vectors, no claim about a real block. -/
def ref : Config :=
  { octets := { startOctet := 0xC1#8, endOctet := 0xC0#8, escOctet := 0xDB#8, escEnd := 0xDC#8, escEsc := 0xDD#8 }
    nEnc := 2 }

/-- The free byte (R6, R9 `draw`): the value of the `k`-th draw of an octet the spec leaves open (a payload byte the
host never wrote, R27; a READ_OBUF outside a good result, R105). No body: nothing is known of its value. -/
opaque freeByte : Nat → Byte

end Config
end Sys2Proof
end

