-- ==== Sys2Proof/Syntax.lean ====
section
/-! DEFINITION. The instructions: one constructor per row of spec/opcode_table.json; the words that select them; the events that schedule the agents. -/
namespace Sys2Proof

/-- The control states of an encoder engine (R21), its stand-in for a program counter. -/
inductive EncPhase
  | idle
  | acq
  | flush
  | start
  | size
  | body
  | esc2
  | chk
  | endMark
  | rel
  deriving DecidableEq, Repr

/-- The control states of the decoder (R28); `bodyEsc` is the pending escape of R34. -/
inductive DecPhase
  | idle
  | awaitStart
  | readSize
  | readBody
  | bodyEsc
  deriving DecidableEq, Repr

/-- The lock's answer to `acquire()` (R224), a draw. -/
inductive AcqAnswer
  | ok
  | fail
  deriving DecidableEq, Repr

/-- The lock's answer to `release()` (R225), a draw: OK, or FAIL leaving the lock FREE or BROKEN. -/
inductive RelAnswer
  | ok
  | failFree
  | failBroken
  deriving DecidableEq, Repr

/-- What the lock collaborator answers if a step asks it (R92: `[ACQ=OK|FAIL] [REL=OK|FAIL,FREE|BROKEN]`). -/
structure LockDraw where
  acq : AcqAnswer
  rel : RelAnswer
  deriving DecidableEq, Repr

/-- An accumulator instance (R91): `ENC[e].acc` or `DEC.acc`. -/
inductive AccInst
  | enc (e : Nat)
  | dec
  deriving DecidableEq, Repr

/-- The operations of the block, in the order of the opcode table. `e` is an engine index; `b` and `c` are the octet
that selected the step, where the row does not fix it. -/
inductive Instr
  /-- ENCODE (R78, R101). -/
  | encode (e : Nat) (len : Byte)
  /-- DECODE (R79, R102). -/
  | decode (maxlen : Byte)
  /-- CANCEL (R80, R103). -/
  | cancel
  /-- WRITE_IBUF (R81, R104). -/
  | writeIbuf (e : Nat) (i : Nat) (v : Byte)
  /-- READ_OBUF (R82, R105). -/
  | readObuf (i : Nat)
  /-- READ_STATUS_ENC (R83, R106). -/
  | readStatusEnc (e : Nat)
  /-- READ_STATUS_DEC (R84, R107). -/
  | readStatusDec
  /-- RESERVED_OP_7 (R86): op 0x7, with the word's other 28 bits. -/
  | reservedOp7 (rest : BitVec 28)
  /-- RESERVED_OP_8_TO_F (R86): bit 31 set, with the word's other 31 bits. -/
  | reservedOp8ToF (rest : BitVec 31)
  /-- ENC.ACQ (R121), with the lock's answer. -/
  | encAcq (e : Nat) (a : AcqAnswer)
  /-- ENC.FLUSH (R122). -/
  | encFlush (e : Nat)
  /-- ENC.START (R123). -/
  | encStart (e : Nat)
  /-- ENC.SIZE (R124). -/
  | encSize (e : Nat)
  /-- ENC.BODY.ESCEND (R126). -/
  | encBodyEscEnd (e : Nat)
  /-- ENC.BODY.ESCESC (R127). -/
  | encBodyEscEsc (e : Nat)
  /-- ENC.BODY.LIT (R125), with the payload byte. -/
  | encBodyLit (e : Nat) (b : Byte)
  /-- ENC.ESC2 (R128). -/
  | encEsc2 (e : Nat)
  /-- ENC.CHK (R129). -/
  | encChk (e : Nat)
  /-- ENC.END (R130). -/
  | encEnd (e : Nat)
  /-- ENC.REL (R131), with the lock's answer. -/
  | encRel (e : Nat) (r : RelAnswer)
  /-- DEC.AS.START (R153). -/
  | decAsStart
  /-- DEC.AS.OTHER (R154), with the octet. -/
  | decAsOther (c : Byte)
  /-- DEC.RS.ANY (R155), with the octet. -/
  | decRsAny (c : Byte)
  /-- DEC.RB.END (R156). -/
  | decRbEnd
  /-- DEC.RB.ESC (R157). -/
  | decRbEsc
  /-- DEC.RB.DATA (R158), with the octet. -/
  | decRbData (c : Byte)
  /-- DEC.BE.ESCEND (R159). -/
  | decBeEscEnd
  /-- DEC.BE.ESCESC (R160). -/
  | decBeEscEsc
  /-- DEC.BE.BAD (R161), with the octet. -/
  | decBeBad (c : Byte)
  /-- ACC.CLEAR (R191). -/
  | accClear (a : AccInst)
  /-- ACC.ADD (R192). -/
  | accAdd (a : AccInst) (d : Byte)
  /-- ACC.FOLD (R193). -/
  | accFold (a : AccInst)
  /-- ACC.CMP (R194). -/
  | accCmp (a : AccInst) (x : Byte)
  /-- LINK.DELIVER (R108). -/
  | linkDeliver (c : Byte)
  deriving DecidableEq, Repr

/-- What an agent presents to its decoder: the word of its format in the opcode table (HOST-REQ32, ENC-SEL12,
DEC-SEL11, ACC-OP2, LINK-EVENT) and what stands beside the word: the engine, the lock's draw, an operand octet. -/
inductive Fetched
  /-- HOST-REQ32 (R77). -/
  | host (w : Word)
  /-- ENC-SEL12, the word phase[3:0], b[7:0] of engine `e` (R89), and the lock's draw. -/
  | enc (e : Nat) (w : BitVec 12) (d : LockDraw)
  /-- DEC-SEL11, the word phase[2:0], c[7:0] (R88). -/
  | dec (w : BitVec 11)
  /-- ACC-OP2 (R91) at an instance, with its operand octet. -/
  | acc (a : AccInst) (op : BitVec 2) (d : Byte)
  /-- LINK-EVENT (R108). -/
  | link (c : Byte)
  deriving DecidableEq, Repr

/-- One scheduler choice (R6): which agent moves next, with its inputs; or the reset event (R250). -/
inductive Event
  /-- The host issues a request word (R100). -/
  | host (w : Word)
  /-- Engine `e` is picked; the lock answers `d` if asked (R92 `STEP ENC e`). -/
  | enc (e : Nat) (d : LockDraw)
  /-- The decoder is picked (R92 `STEP DEC`). -/
  | dec
  /-- The link delivers an octet (R108). -/
  | link (c : Byte)
  /-- Reset is applied (R250): an event outside every agent. -/
  | reset
  deriving DecidableEq, Repr

/-- A bare micro-operation at the accumulator's internal interface (R91). -/
structure MicroOp where
  inst : AccInst
  op : BitVec 2
  operand : Byte
  deriving DecidableEq, Repr

end Sys2Proof
end

