-- ==== Sys2Proof/WellFormed.lean ====
section
/-! DEFINITION. Which instructions are well-formed under a configuration: the operands that the encodings of 30_encoding.md admit, and the octet classes of R88 and R89. -/
namespace Sys2Proof

/-- The accumulator instance exists (R91, R231). -/
def AccInst.wellFormed (p : Config) : AccInst → Bool
  | .enc e => decide (e < p.nEnc)
  | .dec => true

/-- `i` is spelled by some word of its format: engine indices below `N_ENC`, buffer indices in range (R81, R82), and
the selecting octet in the class of its row (R88, R89). -/
def Instr.wellFormed (p : Config) : Instr → Bool
  | .encode e _ => decide (e < p.nEnc)
  | .decode _ => true
  | .cancel => true
  | .writeIbuf e i _ => decide (e < p.nEnc) && decide (i < Config.ibufCap)
  | .readObuf i => decide (i < Config.obufCap)
  | .readStatusEnc e => decide (e < p.nEnc)
  | .readStatusDec => true
  | .reservedOp7 _ => true
  | .reservedOp8ToF _ => true
  | .encAcq e _ => decide (e < p.nEnc)
  | .encFlush e => decide (e < p.nEnc)
  | .encStart e => decide (e < p.nEnc)
  | .encSize e => decide (e < p.nEnc)
  | .encBodyEscEnd e => decide (e < p.nEnc)
  | .encBodyEscEsc e => decide (e < p.nEnc)
  | .encBodyLit e b => decide (e < p.nEnc) && b != p.octets.endOctet && b != p.octets.escOctet
  | .encEsc2 e => decide (e < p.nEnc)
  | .encChk e => decide (e < p.nEnc)
  | .encEnd e => decide (e < p.nEnc)
  | .encRel e _ => decide (e < p.nEnc)
  | .decAsStart => true
  | .decAsOther c => c != p.octets.startOctet
  | .decRsAny _ => true
  | .decRbEnd => true
  | .decRbEsc => true
  | .decRbData c => c != p.octets.endOctet && c != p.octets.escOctet
  | .decBeEscEnd => true
  | .decBeEscEsc => true
  | .decBeBad c => c != p.octets.escEnd && c != p.octets.escEsc
  | .accClear a => a.wellFormed p
  | .accAdd a _ => a.wellFormed p
  | .accFold a => a.wellFormed p
  | .accCmp a _ => a.wellFormed p
  | .linkDeliver _ => true

/-! ## The agents' rows of the opcode table -/

/-- The engine whose step the row is (ENC-SEL12); none for the other rows. -/
def Instr.encEngine? : Instr → Option Nat
  | .encAcq e _ => some e
  | .encFlush e => some e
  | .encStart e => some e
  | .encSize e => some e
  | .encBodyEscEnd e => some e
  | .encBodyEscEsc e => some e
  | .encBodyLit e _ => some e
  | .encEsc2 e => some e
  | .encChk e => some e
  | .encEnd e => some e
  | .encRel e _ => some e
  | .encode _ _ => none
  | .decode _ => none
  | .cancel => none
  | .writeIbuf _ _ _ => none
  | .readObuf _ => none
  | .readStatusEnc _ => none
  | .readStatusDec => none
  | .reservedOp7 _ => none
  | .reservedOp8ToF _ => none
  | .decAsStart => none
  | .decAsOther _ => none
  | .decRsAny _ => none
  | .decRbEnd => none
  | .decRbEsc => none
  | .decRbData _ => none
  | .decBeEscEnd => none
  | .decBeEscEsc => none
  | .decBeBad _ => none
  | .accClear _ => none
  | .accAdd _ _ => none
  | .accFold _ => none
  | .accCmp _ _ => none
  | .linkDeliver _ => none

/-- The agent (or internal interface) a row of the table belongs to: its word format. -/
inductive Format
  | hostReq
  | encSel
  | decSel
  | accOp
  | linkEvent
  deriving DecidableEq, Repr

/-- The "format" of an instruction's row in the opcode table. -/
def Instr.format : Instr → Format
  | .encode _ _ => .hostReq
  | .decode _ => .hostReq
  | .cancel => .hostReq
  | .writeIbuf _ _ _ => .hostReq
  | .readObuf _ => .hostReq
  | .readStatusEnc _ => .hostReq
  | .readStatusDec => .hostReq
  | .reservedOp7 _ => .hostReq
  | .reservedOp8ToF _ => .hostReq
  | .encAcq _ _ => .encSel
  | .encFlush _ => .encSel
  | .encStart _ => .encSel
  | .encSize _ => .encSel
  | .encBodyEscEnd _ => .encSel
  | .encBodyEscEsc _ => .encSel
  | .encBodyLit _ _ => .encSel
  | .encEsc2 _ => .encSel
  | .encChk _ => .encSel
  | .encEnd _ => .encSel
  | .encRel _ _ => .encSel
  | .decAsStart => .decSel
  | .decAsOther _ => .decSel
  | .decRsAny _ => .decSel
  | .decRbEnd => .decSel
  | .decRbEsc => .decSel
  | .decRbData _ => .decSel
  | .decBeEscEnd => .decSel
  | .decBeEscEsc => .decSel
  | .decBeBad _ => .decSel
  | .accClear _ => .accOp
  | .accAdd _ _ => .accOp
  | .accFold _ => .accOp
  | .accCmp _ _ => .accOp
  | .linkDeliver _ => .linkEvent

/-- The format of a fetched word. -/
def Fetched.format : Fetched → Format
  | .host _ => .hostReq
  | .enc _ _ _ => .encSel
  | .dec _ => .decSel
  | .acc _ _ _ => .accOp
  | .link _ => .linkEvent

end Sys2Proof
end

