-- ==== Sys2Proof/Decode.lean ====
section
/-! DEFINITION. The encodings of 30_encoding.md: the constraints on the control octets, the decoders of the five word formats, total and rejecting by name, and the encoder. -/
namespace Sys2Proof

/-! ## The configuration's constraints (R71) -/

/-- K1 to K5 of R71, in that order. -/
def ControlOctets.valid (o : ControlOctets) : Bool :=
  (o.startOctet != o.endOctet && o.startOctet != o.escOctet)
    && o.endOctet != o.escOctet
    && o.escEnd != o.escEsc
    && (o.escEnd != o.endOctet && o.escEnd != o.escOctet && o.escEsc != o.endOctet && o.escEsc != o.escOctet)
    && (decide (0x81#8 ≤ o.endOctet) && decide (0x81#8 ≤ o.escOctet))

/-- The parameters of R5 are legal: K1 to K5, and `1 <= N_ENC <= 256`. -/
def Config.valid (p : Config) : Bool :=
  p.octets.valid && decide (1 ≤ p.nEnc) && decide (p.nEnc ≤ 256)

/-! ## Phase codes (R21, R28) -/

def EncPhase.code : EncPhase → BitVec 4
  | .idle => 0#4
  | .acq => 1#4
  | .flush => 2#4
  | .start => 3#4
  | .size => 4#4
  | .body => 5#4
  | .esc2 => 6#4
  | .chk => 7#4
  | .endMark => 8#4
  | .rel => 9#4

/-- The phase a code names; codes 10 to 15 are unused (R21). -/
def EncPhase.ofCode? (k : BitVec 4) : Option EncPhase :=
  match k.toNat with
  | 0 => some .idle
  | 1 => some .acq
  | 2 => some .flush
  | 3 => some .start
  | 4 => some .size
  | 5 => some .body
  | 6 => some .esc2
  | 7 => some .chk
  | 8 => some .endMark
  | 9 => some .rel
  | _ => none

def DecPhase.code : DecPhase → BitVec 3
  | .idle => 0#3
  | .awaitStart => 1#3
  | .readSize => 2#3
  | .readBody => 3#3
  | .bodyEsc => 4#3

/-- The phase a code names; codes 5 to 7 are unused (R28). -/
def DecPhase.ofCode? (k : BitVec 3) : Option DecPhase :=
  match k.toNat with
  | 0 => some .idle
  | 1 => some .awaitStart
  | 2 => some .readSize
  | 3 => some .readBody
  | 4 => some .bodyEsc
  | _ => none

/-! ## Decoding -/

/-- Why a word spells no instruction. -/
inductive Reject
  /-- A reserved bit of a host request is set (R86). -/
  | reservedBits
  /-- The engine index is not below `N_ENC` (R86). -/
  | noSuchEngine
  /-- READ_OBUF with `i = 255` (R82). -/
  | obufIndex
  /-- The phase is IDLE, which selects no step (R120, R150), or an unused code (R21, R28). -/
  | noStep
  deriving DecidableEq, Repr

/-- `i`, if engine `e` exists (R86). -/
def forEngine (p : Config) (e : Nat) (i : Instr) : Except Reject Instr :=
  if e < p.nEnc then .ok i else .error .noSuchEngine

/-- `r`, if every reserved field of the request is zero (R77, R86). -/
def ifReservedZero (zero : Bool) (r : Except Reject Instr) : Except Reject Instr :=
  if zero then r else .error .reservedBits

/-- The host request word (R77 to R86): `op` in [31:28], then the fields [27:20], [19:16], [15:8], [7:0]. -/
def decodeHost (p : Config) (w : Word) : Except Reject Instr :=
  let f27 := w.extractLsb' 20 8
  let f19 := w.extractLsb' 16 4
  let f15 := w.extractLsb' 8 8
  let f7 := w.extractLsb' 0 8
  match (w.extractLsb' 28 4).toNat with
  | 0 => ifReservedZero (f19 == 0#4 && f15 == 0#8) (forEngine p f27.toNat (.encode f27.toNat f7))
  | 1 => ifReservedZero (f27 == 0#8 && f19 == 0#4 && f15 == 0#8) (.ok (.decode f7))
  | 2 => ifReservedZero (f27 == 0#8 && f19 == 0#4 && f15 == 0#8 && f7 == 0#8) (.ok .cancel)
  | 3 => ifReservedZero (f19 == 0#4 && !f15.msb) (forEngine p f27.toNat (.writeIbuf f27.toNat f15.toNat f7))
  | 4 => ifReservedZero (f27 == 0#8 && f19 == 0#4 && f7 == 0#8)
      (if f15 == 0xFF#8 then .error .obufIndex else .ok (.readObuf f15.toNat))
  | 5 => ifReservedZero (f19 == 0#4 && f15 == 0#8 && f7 == 0#8) (forEngine p f27.toNat (.readStatusEnc f27.toNat))
  | 6 => ifReservedZero (f27 == 0#8 && f19 == 0#4 && f15 == 0#8 && f7 == 0#8) (.ok .readStatusDec)
  | 7 => .ok (.reservedOp7 (w.extractLsb' 0 28))
  | _ => .ok (.reservedOp8ToF (w.extractLsb' 0 31))

/-- The step of engine `e` that phase and payload byte select (R89); outside BODY the byte is not looked at. -/
def decodeEncPhase (p : Config) (e : Nat) (b : Byte) (d : LockDraw) : EncPhase → Except Reject Instr
  | .idle => .error .noStep
  | .acq => .ok (.encAcq e d.acq)
  | .flush => .ok (.encFlush e)
  | .start => .ok (.encStart e)
  | .size => .ok (.encSize e)
  | .body =>
    if b = p.octets.endOctet then .ok (.encBodyEscEnd e)
    else if b = p.octets.escOctet then .ok (.encBodyEscEsc e)
    else .ok (.encBodyLit e b)
  | .esc2 => .ok (.encEsc2 e)
  | .chk => .ok (.encChk e)
  | .endMark => .ok (.encEnd e)
  | .rel => .ok (.encRel e d.rel)

/-- ENC-SEL12 (R89): the word phase[3:0], b[7:0] of engine `e`. -/
def decodeEnc (p : Config) (e : Nat) (w : BitVec 12) (d : LockDraw) : Except Reject Instr :=
  if e < p.nEnc then
    match EncPhase.ofCode? (w.extractLsb' 8 4) with
    | none => .error .noStep
    | some ph => decodeEncPhase p e (w.extractLsb' 0 8) d ph
  else .error .noSuchEngine

/-- The decoder step that phase and received octet select (R88): the tests in the order listed, the first match wins. -/
def decodeDecPhase (p : Config) (c : Byte) : DecPhase → Except Reject Instr
  | .idle => .error .noStep
  | .awaitStart => if c = p.octets.startOctet then .ok .decAsStart else .ok (.decAsOther c)
  | .readSize => .ok (.decRsAny c)
  | .readBody =>
    if c = p.octets.endOctet then .ok .decRbEnd
    else if c = p.octets.escOctet then .ok .decRbEsc
    else .ok (.decRbData c)
  | .bodyEsc =>
    if c = p.octets.escEnd then .ok .decBeEscEnd
    else if c = p.octets.escEsc then .ok .decBeEscEsc
    else .ok (.decBeBad c)

/-- DEC-SEL11 (R88): the word phase[2:0], c[7:0]. -/
def decodeDec (p : Config) (w : BitVec 11) : Except Reject Instr :=
  match DecPhase.ofCode? (w.extractLsb' 8 3) with
  | none => .error .noStep
  | some ph => decodeDecPhase p (w.extractLsb' 0 8) ph

/-- ACC-OP2 (R91): the select code of a micro-operation. -/
def decodeAcc (p : Config) (a : AccInst) (op : BitVec 2) (d : Byte) : Except Reject Instr :=
  if a.wellFormed p then
    match op.toNat with
    | 0 => .ok (.accClear a)
    | 1 => .ok (.accAdd a d)
    | 2 => .ok (.accFold a)
    | _ => .ok (.accCmp a d)
  else .error .noSuchEngine

/-- The instruction a fetched word spells, or why it spells none. -/
def decode (p : Config) : Fetched → Except Reject Instr
  | .host w => decodeHost p w
  | .enc e w d => decodeEnc p e w d
  | .dec w => decodeDec p w
  | .acc a op d => decodeAcc p a op d
  | .link c => .ok (.linkDeliver c)

/-! ## Encoding -/

/-- A host request word from its fields (R77). -/
def hostWord (op : BitVec 4) (f27 : Byte) (f19 : BitVec 4) (f15 f7 : Byte) : Word :=
  op ++ f27 ++ f19 ++ f15 ++ f7

/-- An encoder's select word (R89). -/
def encWord (ph : EncPhase) (b : Byte) : BitVec 12 := ph.code ++ b

/-- The decoder's select word (R88). -/
def decWord (ph : DecPhase) (c : Byte) : BitVec 11 := ph.code ++ c

/-- The draw of a step that does not ask the lock (R92: default OK). -/
def LockDraw.allOk : LockDraw := { acq := .ok, rel := .ok }

/-- The word of an instruction, from the tables R77 to R84, R88, R89 and R91. Bits a row leaves unread are 0. -/
def encode (p : Config) : Instr → Fetched
  | .encode e len => .host (hostWord 0x0#4 (BitVec.ofNat 8 e) 0#4 0#8 len)
  | .decode maxlen => .host (hostWord 0x1#4 0#8 0#4 0#8 maxlen)
  | .cancel => .host 0x20000000#32
  | .writeIbuf e i v => .host (hostWord 0x3#4 (BitVec.ofNat 8 e) 0#4 (BitVec.ofNat 8 i) v)
  | .readObuf i => .host (hostWord 0x4#4 0#8 0#4 (BitVec.ofNat 8 i) 0#8)
  | .readStatusEnc e => .host (hostWord 0x5#4 (BitVec.ofNat 8 e) 0#4 0#8 0#8)
  | .readStatusDec => .host 0x60000000#32
  | .reservedOp7 rest => .host (0x7#4 ++ rest)
  | .reservedOp8ToF rest => .host (1#1 ++ rest)
  | .encAcq e a => .enc e (encWord .acq 0#8) { LockDraw.allOk with acq := a }
  | .encFlush e => .enc e (encWord .flush 0#8) LockDraw.allOk
  | .encStart e => .enc e (encWord .start 0#8) LockDraw.allOk
  | .encSize e => .enc e (encWord .size 0#8) LockDraw.allOk
  | .encBodyEscEnd e => .enc e (encWord .body p.octets.endOctet) LockDraw.allOk
  | .encBodyEscEsc e => .enc e (encWord .body p.octets.escOctet) LockDraw.allOk
  | .encBodyLit e b => .enc e (encWord .body b) LockDraw.allOk
  | .encEsc2 e => .enc e (encWord .esc2 0#8) LockDraw.allOk
  | .encChk e => .enc e (encWord .chk 0#8) LockDraw.allOk
  | .encEnd e => .enc e (encWord .endMark 0#8) LockDraw.allOk
  | .encRel e r => .enc e (encWord .rel 0#8) { LockDraw.allOk with rel := r }
  | .decAsStart => .dec (decWord .awaitStart p.octets.startOctet)
  | .decAsOther c => .dec (decWord .awaitStart c)
  | .decRsAny c => .dec (decWord .readSize c)
  | .decRbEnd => .dec (decWord .readBody p.octets.endOctet)
  | .decRbEsc => .dec (decWord .readBody p.octets.escOctet)
  | .decRbData c => .dec (decWord .readBody c)
  | .decBeEscEnd => .dec (decWord .bodyEsc p.octets.escEnd)
  | .decBeEscEsc => .dec (decWord .bodyEsc p.octets.escEsc)
  | .decBeBad c => .dec (decWord .bodyEsc c)
  | .accClear a => .acc a 0b00#2 0#8
  | .accAdd a d => .acc a 0b01#2 d
  | .accFold a => .acc a 0b10#2 0#8
  | .accCmp a x => .acc a 0b11#2 x
  | .linkDeliver c => .link c

/-! ## The opcode table's words -/

/-- What a word of `nbits` bits, numbered as spec/opcode_table.json numbers a row's, presents to the decoder. The
table's five formats are five separate opcode spaces, and only the number of bits tells them apart here (DESIGN
CHOICE, entry 13): 32 bits is a host request; 9 to 16 bits is a select word, DEC-SEL11 where bits [10:8] hold one of
the decoder's phases 1 to 4 and the word has no higher bit (unless `nbits` is 12, the encoder's own width), else
ENC-SEL12 of engine 0 with every lock answer OK; 1 to 8 bits is a micro-operation code at the decoder's accumulator
with operand 0; a row with no bits is the link's event, with the octet in the low bits. -/
def tableFetched (nbits w : Nat) : Option Fetched :=
  if nbits = 0 then some (.link (BitVec.ofNat 8 w))
  else if nbits ≤ 8 then
    if w < 4 then some (.acc .dec (BitVec.ofNat 2 w) 0#8) else none
  else if nbits ≤ 16 then
    if 0x100 ≤ w && decide (w < 0x500) && nbits != 12 then some (.dec (BitVec.ofNat 11 w))
    else if w < 0x1000 then some (.enc 0 (BitVec.ofNat 12 w) LockDraw.allOk) else none
  else if nbits ≤ 32 then some (.host (BitVec.ofNat 32 w))
  else none

/-- The instruction this file's decoder reads from a word of the opcode table, under `REF` (the configuration at which
the table gives its parametric rows, `match_at`). -/
def decodeTableWord (nbits w : Nat) : Option Instr :=
  match tableFetched nbits w with
  | none => none
  | some f =>
    match decode Config.ref f with
    | .ok i => some i
    | .error _ => none

end Sys2Proof
end

