-- ==== Sys2Proof/Machine/State.lean ====
section
/-! DEFINITION. The state of the block (10_state.md R20 to R47), plain data, and its reset value (70_reset_and_hazards.md R250). -/
namespace Sys2Proof.Machine

/-- The result codes of R87. -/
inductive Status
  | ok
  | payloadTooLarge
  | lockAcquireFailed
  | lockReleaseFailed
  | checksumMismatch
  | malformedEscape
  | cancelled
  | none
  deriving DecidableEq, Repr

/-- The host-duty faults of R218. -/
inductive DutyFault
  | cmdBusy
  | ibufHazard
  | obufHazard
  | cancelNotWaiting
  deriving DecidableEq, Repr

/-- `FAULTS` (R40): a set of the four reasons of R218, one sticky bit each. -/
structure FaultSet where
  cmdBusy : Bool
  ibufHazard : Bool
  obufHazard : Bool
  cancelNotWaiting : Bool
  deriving DecidableEq, Repr

/-- `LOCK` (R37): the part of the transmit lock's state that the block's rules read. -/
inductive Lock
  | free
  | held (e : Nat)
  | broken
  deriving DecidableEq, Repr

/-- An octet space (R50): the octets written so far by index, strictly rising; an index not listed was never written
(R27, R36) and holds no value. -/
abbrev Memory := List Host.Cell

/-- One encoder engine `ENC[e]` (R21 to R26) with its payload buffer `IBUF[e]` (R27). -/
structure Encoder where
  phase : EncPhase
  len : Byte
  idx : Byte
  sub : Byte
  acc : Byte
  status : Status
  done : Bool
  ibuf : Memory
  deriving DecidableEq, Repr

/-- The decoder `DEC` (R28 to R35). -/
structure Decoder where
  phase : DecPhase
  size : Byte
  maxlen : Byte
  acc : Byte
  n : Byte
  pend : Bool
  prev : Byte
  status : Status
  done : Bool
  rlen : Byte
  deriving DecidableEq, Repr

/-- What a bare accumulator micro-operation put out (R91): FOLD a `u8`, CMP one bit. -/
inductive AccOut
  | none
  | fold (v : Byte)
  | eq (b : Bool)
  deriving DecidableEq, Repr

/-- The state: R20's tuple, the configuration (fixed at build, read-only: `ctl`, and `N_ENC` as the number of `encs`),
and the model's own fields. -/
structure State where
  /-- The five control octets (R5): configuration, never written. -/
  ctl : ControlOctets
  /-- `ENC[0..N_ENC-1]` and `IBUF[0..N_ENC-1]`. -/
  encs : List Encoder
  /-- `DEC`. -/
  dec : Decoder
  /-- `OBUF` (R36). -/
  obuf : Memory
  /-- `LOCK` (R37). -/
  lock : Lock
  /-- `TXLOG` (R38): the octets emitted, in order. -/
  txlog : List Byte
  /-- `RXQ` (R39): the octets received and not yet read, oldest first. -/
  rxq : List Byte
  /-- `FAULTS` (R40). -/
  faults : FaultSet
  /-- `REFUSED` (R40). -/
  refused : Bool
  /-- The model's own: the response word of the last request answered (R77), none before the first. -/
  response : Option Word
  /-- The model's own: the output of the last bare micro-operation (R91). -/
  accOut : AccOut
  /-- The model's own: a bare micro-operation waiting at the accumulator's internal interface (R91). No step sets it. -/
  micro : Option MicroOp
  /-- The model's own: how many free bytes have been drawn. -/
  draws : Nat
  /-- The model's own: the scheduler's choices and the outside world's inputs still to come (R6). -/
  pending : List Event
  deriving DecidableEq, Repr

/-- Why a step has no next state. -/
inductive Fault
  /-- Raised by the meaning of an engine step in a state that does not select it (its phase, or its octet, is another:
  R7 "not enabled"). Safe: no run of `step` reaches it. -/
  | notSelected
  /-- Raised by an engine step or a micro-operation that names an engine `e >= N_ENC`: there is no such engine (R231).
  Safe: it ends the run. -/
  | noSuchEngine
  deriving DecidableEq, Repr

/-- Why a step is refused. -/
inductive Refusal
  /-- Raised by `exec` for an instruction without a meaning. Safe. No instruction is left so. -/
  | notModelled (mnemonic : String)
  /-- Raised by `step` when the configuration breaks K1 to K5 or `1 <= N_ENC <= 256`: "the model has no block for it"
  (R219). Safe. -/
  | badConfiguration
  deriving DecidableEq, Repr

/-- What a step or a meaning answers. -/
abbrev Outcome := Host.Outcome State Fault Refusal

/-! ## Reset (R47, R250) -/

/-- `FAULTS = {}`. -/
def FaultSet.empty : FaultSet :=
  { cmdBusy := false, ibufHazard := false, obufHazard := false, cancelNotWaiting := false }

/-- An encoder engine after reset. -/
def Encoder.reset : Encoder :=
  { phase := .idle, len := 0#8, idx := 0#8, sub := 0#8, acc := 0#8, status := .none, done := false, ibuf := [] }

/-- The decoder after reset. -/
def Decoder.reset : Decoder :=
  { phase := .idle, size := 0#8, maxlen := 0#8, acc := 0#8, n := 0#8, pend := false, prev := 0#8,
    status := .none, done := false, rlen := 0#8 }

/-- The block of configuration `p` right after reset. -/
def State.resetWith (p : Config) : State :=
  { ctl := p.octets
    encs := List.replicate p.nEnc Encoder.reset
    dec := Decoder.reset
    obuf := []
    lock := .free
    txlog := []
    rxq := []
    faults := FaultSet.empty
    refused := false
    response := none
    accOut := .none
    micro := none
    draws := 0
    pending := [] }

/-- The machine right after reset, in the reference configuration (DESIGN CHOICE, entry 2). -/
def State.reset : State := State.resetWith Config.ref

end Sys2Proof.Machine
end

