-- ==== Sys2Proof/Machine/Ops.lean ====
section
/-! DEFINITION. The primitives of 00_scope.md R9 over the state: octet spaces, ports, the lock, the accumulator, ending a command (the block's "exception entry", R210, R221), faults and refusals. -/
namespace Sys2Proof.Machine

/-! ## Octet spaces (R50, R53) -/

/-- The octet at index `i`; none if it was never written. -/
def Memory.read : Memory → Nat → Option Byte
  | [], _ => none
  | (a, v) :: m, i => if a = i then some v else Memory.read m i

/-- Overwrite index `i` (R54). -/
def Memory.write : Memory → Nat → Byte → Memory
  | [], i, v => [(i, v)]
  | (a, w) :: m, i, v =>
    if i < a then (i, v) :: (a, w) :: m
    else if i = a then (i, v) :: m
    else (a, w) :: Memory.write m i v

/-- Indices strictly rise, from `lo` on, and stay below the space's capacity. -/
def Memory.wfFrom (cap : Nat) : Nat → Memory → Bool
  | _, [] => true
  | lo, (a, _) :: m => decide (lo ≤ a) && decide (a < cap) && Memory.wfFrom cap (a + 1) m

/-- The canonical form of an octet space of `cap` octets. -/
def Memory.wf (cap : Nat) (m : Memory) : Bool := Memory.wfFrom cap 0 m

/-! ## Whole-state views and updates -/

/-- `N_ENC` (R5). -/
def State.nEnc (s : State) : Nat := s.encs.length

/-- The configuration of the block (R5, R20). -/
def State.config (s : State) : Config := { octets := s.ctl, nEnc := s.nEnc }

/-- Write the registers of engine `e`. -/
def State.setEnc (s : State) (e : Nat) (E : Encoder) : State := { s with encs := s.encs.set e E }

/-- Write the decoder's registers. -/
def State.setDec (s : State) (D : Decoder) : State := { s with dec := D }

/-- `emit(c)` (R9): append to the transmit port; it always succeeds (R227). -/
def State.emit (s : State) (c : Byte) : State := { s with txlog := s.txlog ++ [c] }

/-- `take()` (R9): the first octet of the receive queue, and the state without it. Enabled only when `RXQ != []`. -/
def State.take? (s : State) : Option (Byte × State) :=
  match s.rxq with
  | [] => none
  | c :: rest => some (c, { s with rxq := rest })

/-- The transport appends a received octet (R108, R228). -/
def State.deliver (s : State) (c : Byte) : State := { s with rxq := s.rxq ++ [c] }

/-- The response word of a request (R77). -/
def State.respond (s : State) (w : Word) : State := { s with response := some w }

/-- `draw v in 0..255` (R9): the next free byte, and the state that has drawn it. -/
def State.drawByte (s : State) : Byte × State := (Config.freeByte s.draws, { s with draws := s.draws + 1 })

/-! ## Ending a command, faults, refusals: the block's exceptions (R210, R218, R219, R221) -/

/-- `finish_enc` (R9): the command ends with `code`; nothing else is saved (R210). -/
def Encoder.finish (E : Encoder) (code : Status) : Encoder :=
  { E with phase := .idle, status := code, done := true }

/-- `finish_dec` (R9): the command ends with `code`; `rlen` is `n` on OK and 0 otherwise (R35). -/
def Decoder.finish (D : Decoder) (code : Status) : Decoder :=
  { D with phase := .idle, status := code, done := true, rlen := if code = .ok then D.n else 0#8 }

/-- Add a reason to the sticky set. -/
def FaultSet.insert (f : FaultSet) : DutyFault → FaultSet
  | .cmdBusy => { f with cmdBusy := true }
  | .ibufHazard => { f with ibufHazard := true }
  | .obufHazard => { f with obufHazard := true }
  | .cancelNotWaiting => { f with cancelNotWaiting := true }

/-- The reason is in the set. -/
def FaultSet.mem (f : FaultSet) : DutyFault → Bool
  | .cmdBusy => f.cmdBusy
  | .ibufHazard => f.ibufHazard
  | .obufHazard => f.obufHazard
  | .cancelNotWaiting => f.cancelNotWaiting

/-- `raise Fault(reason)` (R9): the request makes no other change. -/
def State.raiseFault (s : State) (r : DutyFault) : State := { s with faults := s.faults.insert r }

/-- `refuse(BAD_REQUEST)` (R9, R100): the request makes no other change. -/
def State.refuse (s : State) : State := { s with refused := true }

/-! ## Starting a command: the nearest thing to a return from an error (R222, R251) -/

/-- The decoder as a DECODE leaves it: every register re-initialised (R102, R251). -/
def Decoder.fresh (maxlen : Byte) : Decoder :=
  { phase := .awaitStart, size := 0#8, maxlen := maxlen, acc := 0#8, n := 0#8, pend := false, prev := 0#8,
    status := .none, done := false, rlen := 0#8 }

/-- The reset event (R250): every piece of state to its reset value. The configuration, which is not state, stays;
so do the inputs still to come and the count of draws, which belong to the outside. -/
def State.applyReset (s : State) : State :=
  { State.resetWith s.config with draws := s.draws, pending := s.pending }

/-! ## The lock (R224, R225) -/

/-- `lock_acquire(e)` answering OK: possible only when the lock is FREE. -/
def Lock.acquire (l : Lock) (e : Nat) : Option Lock :=
  match l with
  | .free => some (.held e)
  | .held _ => none
  | .broken => none

/-- The lock after `lock_release` answers `r`. -/
def Lock.afterRelease : RelAnswer → Lock
  | .ok => .free
  | .failFree => .free
  | .failBroken => .broken

/-- The status a release answer gives the command (R131). -/
def Status.ofRelease : RelAnswer → Status
  | .ok => .ok
  | .failFree => .lockReleaseFailed
  | .failBroken => .lockReleaseFailed

/-! ## The checksum accumulator's operations (R191 to R194) -/

/-- ACC.CLEAR. -/
def Acc.clear : Byte := 0#8

/-- ACC.ADD: `acc +8 d`, wrapping silently. -/
def Acc.add (acc d : Byte) : Byte := acc + d

/-- ACC.FOLD: the 7-bit masked sum. -/
def Acc.fold (acc : Byte) : Byte := acc &&& Config.chkMask

/-- ACC.CMP: the masked sum equals the whole octet `x`. -/
def Acc.cmp (acc x : Byte) : Bool := Acc.fold acc == x

/-- The accumulator register of an instance; none if its engine does not exist. -/
def State.acc? (s : State) : AccInst → Option Byte
  | .enc e => s.encs[e]?.map Encoder.acc
  | .dec => some s.dec.acc

/-- Write the accumulator register of an instance. -/
def State.setAcc (s : State) (a : AccInst) (v : Byte) : State :=
  match a with
  | .enc e =>
    match s.encs[e]? with
    | none => s
    | some E => s.setEnc e { E with acc := v }
  | .dec => s.setDec { s.dec with acc := v }

end Sys2Proof.Machine
end

