-- ==== Sys2Proof/Machine/Operands.lean ====
section
/-! DEFINITION. Operand access: the payload byte of a BODY step, the received octet of a decoder step, the candidate's commit, and the reference functions on octets (00_scope.md R10, R11). -/
namespace Sys2Proof.Machine

/-! ## Octet classes and the reference functions (R10, R11) -/

/-- `stuff(c)` (R10). -/
def stuff (o : ControlOctets) (c : Byte) : List Byte :=
  if c = o.endOctet then [o.escOctet, o.escEnd]
  else if c = o.escOctet then [o.escOctet, o.escEsc]
  else [c]

/-- The payload with each byte stuffed, in order (R73). -/
def stuffAll (o : ControlOctets) (P : List Byte) : List Byte := P.flatMap (stuff o)

/-- `chk(P)` (R11): the sum of the bytes, mod 128. -/
def chk (P : List Byte) : Byte := BitVec.ofNat 8 ((P.map BitVec.toNat).sum % 128)

/-- `frame(P)` (R11, R70). -/
def frame (o : ControlOctets) (P : List Byte) : List Byte :=
  [o.endOctet, o.startOctet, BitVec.ofNat 8 P.length] ++ stuffAll o P ++ [chk P, o.endOctet]

/-- `E` of R70: how many payload bytes are escaped. -/
def escapedCount (o : ControlOctets) (P : List Byte) : Nat :=
  P.countP (fun c => c == o.endOctet || c == o.escOctet)

/-! ## The encoder's operand -/

/-- `IBUF[e][idx]` can hold `b`: it was written with `b`, or never written, and then it reads as any value (R27). -/
def Encoder.holds (E : Encoder) (b : Byte) : Bool :=
  match E.ibuf.read E.idx.toNat with
  | none => true
  | some v => v == b

/-- The payload byte of a BODY step: what the host wrote, or a draw (R27). -/
def State.payloadByte (s : State) (E : Encoder) : Byte × State :=
  match E.ibuf.read E.idx.toNat with
  | none => s.drawByte
  | some v => (v, s)

/-- Engine `e` exists and is in phase `ph`; then `k` of its registers. -/
def State.atPhase (s : State) (e : Nat) (ph : EncPhase) (k : Encoder → Outcome) : Outcome :=
  match s.encs[e]? with
  | none => .fault .noSuchEngine
  | some E => if E.phase = ph then k E else .fault .notSelected

/-- Engine `e` is in BODY and its payload byte can be `b`; then `k` of its registers. -/
def State.atByte (s : State) (e : Nat) (b : Byte) (k : Encoder → Outcome) : Outcome :=
  s.atPhase e .body fun E => if E.holds b then k E else .fault .notSelected

/-- The phase after a payload byte is sent (R125, R128): CHK if it was the last, else BODY. -/
def Encoder.afterByte (E : Encoder) : EncPhase := if E.idx = E.len then .chk else .body

/-- Engine `e` takes payload byte `b`: it is summed (R192) and the index moves on. -/
def Encoder.takeByte (E : Encoder) (b : Byte) : Encoder :=
  { E with acc := Acc.add E.acc b, idx := E.idx + 1#8 }

/-! ## The decoder's operand -/

/-- The decoder is in phase `ph` and `take()` returns `c`; then `k` of the state after the `take()` (R150). -/
def State.onOctet (s : State) (ph : DecPhase) (c : Byte) (k : State → Outcome) : Outcome :=
  if s.dec.phase = ph then
    match s.take? with
    | none => .fault .notSelected
    | some (x, s') => if x = c then k s' else .fault .notSelected
  else .fault .notSelected

/-- `bound = min(DEC.size, DEC.maxlen)` (R151). -/
def Decoder.bound (D : Decoder) : Nat := min D.size.toNat D.maxlen.toNat

/-- The candidate was a body byte after all: it is summed, and stored within the bound (R152). -/
def State.commitCandidate (s : State) : State :=
  let D := { s.dec with acc := Acc.add s.dec.acc s.dec.prev }
  if s.dec.n.toNat < s.dec.bound then
    { s with dec := { D with n := D.n + 1#8 }, obuf := s.obuf.write D.n.toNat D.prev }
  else { s with dec := D }

/-- `Commit(d)` (R152): commit the candidate if there is one; `d` is the new candidate. -/
def State.commit (s : State) (d : Byte) : State :=
  let s := if s.dec.pend then s.commitCandidate else s
  s.setDec { s.dec with prev := d, pend := true }

/-- A host request names an engine that exists, or it is refused (R86); then `k` of the engine's registers. -/
def State.forEnc (s : State) (e : Nat) (k : Encoder → Outcome) : Outcome :=
  match s.encs[e]? with
  | none => .next s.refuse
  | some E => k E

end Sys2Proof.Machine
end

