-- ==== Sys2Proof/Machine/Flags.lean ====
section
/-! DEFINITION. The flag-like state (10_state.md R43): status codes, busy and done, and the status response word (30_encoding.md R85, R87). -/
namespace Sys2Proof.Machine

/-- The numeric code of a status (R87). -/
def Status.code : Status → Byte
  | .ok => 0x00#8
  | .payloadTooLarge => 0x01#8
  | .lockAcquireFailed => 0x02#8
  | .lockReleaseFailed => 0x03#8
  | .checksumMismatch => 0x04#8
  | .malformedEscape => 0x05#8
  | .cancelled => 0x06#8
  | .none => 0xFF#8

/-- An encoder engine is busy (R12): its phase is not IDLE. -/
def Encoder.busy (E : Encoder) : Bool := E.phase != .idle

/-- The decoder is busy (R12). -/
def Decoder.busy (D : Decoder) : Bool := D.phase != .idle

/-- The status response word (R85): 15 reserved zeros, `done`, `rlen`, `status`. -/
def statusWord (done : Bool) (rlen : Byte) (status : Status) : Word :=
  0#15 ++ BitVec.ofBool done ++ rlen ++ status.code

/-- The word READ_STATUS_ENC answers (R106). -/
def Encoder.statusWord (E : Encoder) : Word := Machine.statusWord E.done 0#8 E.status

/-- The word READ_STATUS_DEC answers (R107). -/
def Decoder.statusWord (D : Decoder) : Word := Machine.statusWord D.done D.rlen D.status

end Sys2Proof.Machine
end

