-- ==== Sys2Proof/Machine/Accumulator.lean ====
section
/-! DEFINITION. The meanings of the checksum accumulator's bare micro-operations (43_checksum.md) and of the link's event (40_commands.md R108). -/
namespace Sys2Proof.Machine

/-- The instance exists; then `k` of its register. -/
def State.atAcc (s : State) (a : AccInst) (k : Byte → State) : Outcome :=
  match s.acc? a with
  | none => .fault .noSuchEngine
  | some acc => .next (k acc)

/-- ACC.CLEAR (R191). -/
def execAccClear (a : AccInst) (s : State) : Outcome :=
  s.atAcc a fun _ => s.setAcc a Acc.clear

/-- ACC.ADD (R192). -/
def execAccAdd (a : AccInst) (d : Byte) (s : State) : Outcome :=
  s.atAcc a fun acc => s.setAcc a (Acc.add acc d)

/-- ACC.FOLD (R193): the register is unchanged. -/
def execAccFold (a : AccInst) (s : State) : Outcome :=
  s.atAcc a fun acc => { s with accOut := .fold (Acc.fold acc) }

/-- ACC.CMP (R194): the register is unchanged. -/
def execAccCmp (a : AccInst) (x : Byte) (s : State) : Outcome :=
  s.atAcc a fun acc => { s with accOut := .eq (Acc.cmp acc x) }

/-- LINK.DELIVER (R108). -/
def execLinkDeliver (c : Byte) (s : State) : Outcome := .next (s.deliver c)

end Sys2Proof.Machine
end

