-- ==== Sys2Proof/Machine/DecoderSteps.lean ====
section
/-! DEFINITION. The meanings of the decoder's steps (42_decoder.md); each first takes one received octet (R150). -/
namespace Sys2Proof.Machine

/-- The decoder moves to phase `ph`. -/
def State.decTo (s : State) (ph : DecPhase) : State := s.setDec { s.dec with phase := ph }

/-- The decoder's command ends with `code`. -/
def State.finishDec (s : State) (code : Status) : State := s.setDec (s.dec.finish code)

/-- DEC.AS.START (R153). -/
def execDecAsStart (s : State) : Outcome :=
  s.onOctet .awaitStart s.ctl.startOctet fun s => .next (s.decTo .readSize)

/-- DEC.AS.OTHER (R154): the octet is discarded. -/
def execDecAsOther (c : Byte) (s : State) : Outcome :=
  s.onOctet .awaitStart c fun s => if c = s.ctl.startOctet then .fault .notSelected else .next s

/-- DEC.RS.ANY (R155): SIZE is stored as received; the sum, the count and the candidate are cleared. -/
def execDecRsAny (c : Byte) (s : State) : Outcome :=
  s.onOctet .readSize c fun s =>
    .next (s.setDec { s.dec with size := c, acc := Acc.clear, n := 0#8, pend := false, phase := .readBody })

/-- DEC.RB.END (R156): the candidate is the checksum. -/
def execDecRbEnd (s : State) : Outcome :=
  s.onOctet .readBody s.ctl.endOctet fun s =>
    if s.dec.pend && Acc.cmp s.dec.acc s.dec.prev then .next (s.finishDec .ok)
    else .next (s.finishDec .checksumMismatch)

/-- DEC.RB.ESC (R157). -/
def execDecRbEsc (s : State) : Outcome :=
  s.onOctet .readBody s.ctl.escOctet fun s => .next (s.decTo .bodyEsc)

/-- DEC.RB.DATA (R158). -/
def execDecRbData (c : Byte) (s : State) : Outcome :=
  s.onOctet .readBody c fun s =>
    if c = s.ctl.endOctet ∨ c = s.ctl.escOctet then .fault .notSelected else .next (s.commit c)

/-- DEC.BE.ESCEND (R159). -/
def execDecBeEscEnd (s : State) : Outcome :=
  s.onOctet .bodyEsc s.ctl.escEnd fun s => .next ((s.commit s.ctl.endOctet).decTo .readBody)

/-- DEC.BE.ESCESC (R160). -/
def execDecBeEscEsc (s : State) : Outcome :=
  s.onOctet .bodyEsc s.ctl.escEsc fun s => .next ((s.commit s.ctl.escOctet).decTo .readBody)

/-- DEC.BE.BAD (R161). -/
def execDecBeBad (c : Byte) (s : State) : Outcome :=
  s.onOctet .bodyEsc c fun s =>
    if c = s.ctl.escEnd ∨ c = s.ctl.escEsc then .fault .notSelected else .next (s.finishDec .malformedEscape)

end Sys2Proof.Machine
end

