-- ==== Sys2Proof/Machine/EncoderSteps.lean ====
section
/-! DEFINITION. The meanings of the encoder engine's steps (41_encoder.md). -/
namespace Sys2Proof.Machine

/-- ENC.ACQ (R121): OK takes a FREE lock; while the lock is not FREE there is no OK step and the engine waits. -/
def execEncAcq (e : Nat) (a : AcqAnswer) (s : State) : Outcome :=
  s.atPhase e .acq fun E =>
    match a with
    | .ok =>
      match s.lock.acquire e with
      | some l => .next ({ s with lock := l }.setEnc e { E with phase := .flush })
      | none => .next s
    | .fail => .next (s.setEnc e (E.finish .lockAcquireFailed))

/-- ENC.FLUSH (R122). -/
def execEncFlush (e : Nat) (s : State) : Outcome :=
  s.atPhase e .flush fun E => .next ((s.emit s.ctl.endOctet).setEnc e { E with phase := .start })

/-- ENC.START (R123). -/
def execEncStart (e : Nat) (s : State) : Outcome :=
  s.atPhase e .start fun E => .next ((s.emit s.ctl.startOctet).setEnc e { E with phase := .size })

/-- ENC.SIZE (R124). -/
def execEncSize (e : Nat) (s : State) : Outcome :=
  s.atPhase e .size fun E =>
    .next ((s.emit E.len).setEnc e { E with phase := if E.len = 0#8 then .chk else .body })

/-- The shared part of R126 and R127: sum the byte itself, emit ESC, remember the substitute code. -/
def escapeByte (s : State) (e : Nat) (E : Encoder) (b sub : Byte) : State :=
  (s.emit s.ctl.escOctet).setEnc e { E.takeByte b with sub := sub, phase := .esc2 }

/-- ENC.BODY.ESCEND (R126). -/
def execEncBodyEscEnd (e : Nat) (s : State) : Outcome :=
  s.atByte e s.ctl.endOctet fun E => .next (escapeByte s e E s.ctl.endOctet s.ctl.escEnd)

/-- ENC.BODY.ESCESC (R127). -/
def execEncBodyEscEsc (e : Nat) (s : State) : Outcome :=
  s.atByte e s.ctl.escOctet fun E => .next (escapeByte s e E s.ctl.escOctet s.ctl.escEsc)

/-- ENC.BODY.LIT (R125). -/
def execEncBodyLit (e : Nat) (b : Byte) (s : State) : Outcome :=
  s.atByte e b fun E =>
    if b = s.ctl.endOctet ∨ b = s.ctl.escOctet then .fault .notSelected
    else .next ((s.emit b).setEnc e { E.takeByte b with phase := (E.takeByte b).afterByte })

/-- ENC.ESC2 (R128). -/
def execEncEsc2 (e : Nat) (s : State) : Outcome :=
  s.atPhase e .esc2 fun E => .next ((s.emit E.sub).setEnc e { E with phase := E.afterByte })

/-- ENC.CHK (R129). -/
def execEncChk (e : Nat) (s : State) : Outcome :=
  s.atPhase e .chk fun E => .next ((s.emit (Acc.fold E.acc)).setEnc e { E with phase := .endMark })

/-- ENC.END (R130). -/
def execEncEnd (e : Nat) (s : State) : Outcome :=
  s.atPhase e .endMark fun E => .next ((s.emit s.ctl.endOctet).setEnc e { E with phase := .rel })

/-- ENC.REL (R131). -/
def execEncRel (e : Nat) (r : RelAnswer) (s : State) : Outcome :=
  s.atPhase e .rel fun E =>
    .next ({ s with lock := Lock.afterRelease r }.setEnc e (E.finish (Status.ofRelease r)))

end Sys2Proof.Machine
end

