-- ==== Sys2Proof/Machine/Requests.lean ====
section
/-! DEFINITION. The meanings of the host requests (40_commands.md). Checks in R220's order: refusal, fault, status. -/
namespace Sys2Proof.Machine

/-- ENCODE (R101). -/
def execEncode (e : Nat) (len : Byte) (s : State) : Outcome :=
  s.forEnc e fun E =>
    if E.busy then .next (s.raiseFault .cmdBusy)
    else
      let E := { E with done := false, status := .none }
      let E :=
        if Config.maxPayload < len.toNat then E.finish .payloadTooLarge
        else { E with len := len, idx := 0#8, sub := 0#8, acc := Acc.clear, phase := .acq }
      .next ((s.setEnc e E).respond 0#32)

/-- DECODE (R102). -/
def execDecode (maxlen : Byte) (s : State) : Outcome :=
  if s.dec.busy then .next (s.raiseFault .cmdBusy)
  else .next ((s.setDec (Decoder.fresh maxlen)).respond 0#32)

/-- CANCEL (R103): legal only while the decoder waits. -/
def execCancel (s : State) : Outcome :=
  if s.dec.busy && s.rxq.isEmpty then .next ((s.setDec (s.dec.finish .cancelled)).respond 0#32)
  else .next (s.raiseFault .cancelNotWaiting)

/-- WRITE_IBUF (R104). -/
def execWriteIbuf (e i : Nat) (v : Byte) (s : State) : Outcome :=
  if i < Config.ibufCap then
    s.forEnc e fun E =>
      if E.busy then .next (s.raiseFault .ibufHazard)
      else .next ((s.setEnc e { E with ibuf := E.ibuf.write i v }).respond 0#32)
  else .next s.refuse

/-- READ_OBUF (R105): the octet of a good result below `rlen`; every other read is a draw. -/
def execReadObuf (i : Nat) (s : State) : Outcome :=
  if i < Config.obufCap then
    if s.dec.busy then .next (s.raiseFault .obufHazard)
    else
      match (if s.dec.status = .ok ∧ i < s.dec.rlen.toNat then s.obuf.read i else none) with
      | some v => .next (s.respond (v.setWidth 32))
      | none => .next (s.drawByte.2.respond (s.drawByte.1.setWidth 32))
  else .next s.refuse

/-- READ_STATUS_ENC (R106). -/
def execReadStatusEnc (e : Nat) (s : State) : Outcome :=
  s.forEnc e fun E => .next (s.respond E.statusWord)

/-- READ_STATUS_DEC (R107). -/
def execReadStatusDec (s : State) : Outcome := .next (s.respond s.dec.statusWord)

/-- RESERVED_OP_7 (R86): refused, which sets REFUSED and changes nothing else. -/
def execReservedOp7 (_rest : BitVec 28) (s : State) : Outcome := .next s.refuse

/-- RESERVED_OP_8_TO_F (R86): refused, which sets REFUSED and changes nothing else. -/
def execReservedOp8ToF (_rest : BitVec 31) (s : State) : Outcome := .next s.refuse

end Sys2Proof.Machine
end

