-- ==== Sys2Proof/Machine/Dispatch.lean ====
section
/-! DEFINITION. One arm per instruction. -/
namespace Sys2Proof.Machine

def exec (i : Instr) (s : State) : Host.Outcome State Fault Refusal :=
  match i with
  | .encode e len => Sys2Proof.Machine.execEncode e len s
  | .decode maxlen => Sys2Proof.Machine.execDecode maxlen s
  | .cancel => Sys2Proof.Machine.execCancel s
  | .writeIbuf e j v => Sys2Proof.Machine.execWriteIbuf e j v s
  | .readObuf j => Sys2Proof.Machine.execReadObuf j s
  | .readStatusEnc e => Sys2Proof.Machine.execReadStatusEnc e s
  | .readStatusDec => Sys2Proof.Machine.execReadStatusDec s
  | .reservedOp7 rest => Sys2Proof.Machine.execReservedOp7 rest s
  | .reservedOp8ToF rest => Sys2Proof.Machine.execReservedOp8ToF rest s
  | .encAcq e a => Sys2Proof.Machine.execEncAcq e a s
  | .encFlush e => Sys2Proof.Machine.execEncFlush e s
  | .encStart e => Sys2Proof.Machine.execEncStart e s
  | .encSize e => Sys2Proof.Machine.execEncSize e s
  | .encBodyEscEnd e => Sys2Proof.Machine.execEncBodyEscEnd e s
  | .encBodyEscEsc e => Sys2Proof.Machine.execEncBodyEscEsc e s
  | .encBodyLit e b => Sys2Proof.Machine.execEncBodyLit e b s
  | .encEsc2 e => Sys2Proof.Machine.execEncEsc2 e s
  | .encChk e => Sys2Proof.Machine.execEncChk e s
  | .encEnd e => Sys2Proof.Machine.execEncEnd e s
  | .encRel e r => Sys2Proof.Machine.execEncRel e r s
  | .decAsStart => Sys2Proof.Machine.execDecAsStart s
  | .decAsOther c => Sys2Proof.Machine.execDecAsOther c s
  | .decRsAny c => Sys2Proof.Machine.execDecRsAny c s
  | .decRbEnd => Sys2Proof.Machine.execDecRbEnd s
  | .decRbEsc => Sys2Proof.Machine.execDecRbEsc s
  | .decRbData c => Sys2Proof.Machine.execDecRbData c s
  | .decBeEscEnd => Sys2Proof.Machine.execDecBeEscEnd s
  | .decBeEscEsc => Sys2Proof.Machine.execDecBeEscEsc s
  | .decBeBad c => Sys2Proof.Machine.execDecBeBad c s
  | .accClear a => Sys2Proof.Machine.execAccClear a s
  | .accAdd a d => Sys2Proof.Machine.execAccAdd a d s
  | .accFold a => Sys2Proof.Machine.execAccFold a s
  | .accCmp a x => Sys2Proof.Machine.execAccCmp a x s
  | .linkDeliver c => Sys2Proof.Machine.execLinkDeliver c s

end Sys2Proof.Machine
end

