-- ==== Sys2Proof/Machine/Agents.lean ====
section
/-! DEFINITION. How an agent that the scheduler picks takes its step: what it presents to its decoder, and what happens to the decoded instruction (00_scope.md R6, R7). -/
namespace Sys2Proof.Machine

/-- What engine `e` presents (R89): its phase, and in BODY its payload byte (a draw if the host never wrote it).
Outside BODY the byte bits are not looked at and are presented as 0. An index that is no engine presents phase 0. -/
def State.fetchEnc (s : State) (e : Nat) (d : LockDraw) : Fetched × State :=
  match s.encs[e]? with
  | none => (.enc e (encWord .idle 0#8) d, s)
  | some E =>
    if E.phase = .body then
      let r := s.payloadByte E
      (.enc e (encWord .body r.1) d, r.2)
    else (.enc e (encWord E.phase 0#8) d, s)

/-- What the decoder presents (R88): its phase and the next received octet; nothing while `RXQ = []`. -/
def State.fetchDec (s : State) : Option Fetched :=
  match s.rxq with
  | [] => none
  | c :: _ => some (.dec (decWord s.dec.phase c))

/-- A word that spells no instruction. A host request is refused (R86, R100). An agent without an enabled step waits:
nothing changes (R7, R163, R222). An engine that does not exist is the model's fault (entry 12). -/
def State.reject (s : State) (f : Fetched) (r : Reject) : Outcome :=
  match f with
  | .host _ => .next s.refuse
  | .enc _ _ _ => if r = .noSuchEngine then .fault .noSuchEngine else .next s
  | .dec _ => .next s
  | .acc _ _ _ => .fault .noSuchEngine
  | .link _ => .next s

/-- Decode what an agent presents, and run it. -/
def State.runFetched (s : State) (f : Fetched) : Outcome :=
  match decode s.config f with
  | .ok i => exec i s
  | .error r => s.reject f r

/-- One scheduler choice takes effect. -/
def State.move (s : State) (ev : Event) : Outcome :=
  match ev with
  | .host w => s.runFetched (.host w)
  | .enc e d => (s.fetchEnc e d).2.runFetched (s.fetchEnc e d).1
  | .dec =>
    match s.fetchDec with
    | none => .next s
    | some f => s.runFetched f
  | .link c => s.runFetched (.link c)
  | .reset => .next s.applyReset

/-- The next step of the block: a micro-operation at the accumulator's internal interface if there is one, else the
scheduler's next choice; with no choice left, nothing moves (R250: "the block waits for a host request"). -/
def State.advance (s : State) : Outcome :=
  match s.micro with
  | some m => { s with micro := none }.runFetched (.acc m.inst m.op m.operand)
  | none =>
    match s.pending with
    | [] => .next s
    | ev :: rest => { s with pending := rest }.move ev

/-- `s` arranged so that its next step presents `f`: the request or event pending, the engine or decoder in the
word's phase with the word's octet before it, the micro-operation at its interface. A select word with an unused phase
code has no such state, and `s` is unchanged. -/
def State.present (s : State) (f : Fetched) : State :=
  match f with
  | .host w => { s with micro := none, pending := .host w :: s.pending }
  | .enc e w d =>
    match EncPhase.ofCode? (w.extractLsb' 8 4), s.encs[e]? with
    | some ph, some E =>
      let E' := { E with
        phase := ph
        ibuf := if ph = .body then E.ibuf.write E.idx.toNat (w.extractLsb' 0 8) else E.ibuf }
      { s.setEnc e E' with micro := none, pending := .enc e d :: s.pending }
    | some _, none => s
    | none, some _ => s
    | none, none => s
  | .dec w =>
    match DecPhase.ofCode? (w.extractLsb' 8 3) with
    | some ph =>
      { s with
        dec := { s.dec with phase := ph }
        rxq := w.extractLsb' 0 8 :: s.rxq
        micro := none
        pending := .dec :: s.pending }
    | none => s
  | .acc a op d => { s with micro := some { inst := a, op := op, operand := d } }
  | .link c => { s with micro := none, pending := .link c :: s.pending }

end Sys2Proof.Machine
end

