-- ==== Sys2Proof/Machine/Step.lean ====
section
/-! DEFINITION. The step of the machine, and the placing of an instruction where the step takes its next one. -/
namespace Sys2Proof.Machine

/-- One step (R6, R7). A configuration that breaks K1 to K5 is refused as a whole (R71, R219). -/
def step (s : State) : Host.Outcome State Fault Refusal :=
  if s.config.valid then s.advance else .refused .badConfiguration

/-- `s` with the opcode-table word `w` of `nbits` bits placed where its agent takes its next instruction. -/
def State.withFetchWord (s : State) (nbits w : Nat) : State :=
  match tableFetched nbits w with
  | none => s
  | some f => s.present f

end Sys2Proof.Machine
end

