-- ==== Sys2Proof/Machine/Script.lean ====
section
/-! DEFINITION. The script syntax of 30_encoding.md R92 and the pseudo-requests of R93, expanded to the events the step reads. -/
namespace Sys2Proof.Machine

/-- One line of a script (R92, R93). -/
inductive ScriptLine
  | encode (e : Nat) (len : Byte)
  | decode (maxlen : Byte)
  | cancel
  | writeIbuf (e i : Nat) (v : Byte)
  | readObuf (i : Nat)
  | readStatusEnc (e : Nat)
  | readStatusDec
  /-- `DELIVER c` and `DELIVER [c0, ..., ck]`. -/
  | deliver (cs : List Byte)
  /-- `STEP ENC e` with the lock's draw. -/
  | stepEnc (e : Nat) (d : LockDraw)
  | stepDec
  /-- `RUN ENC e`: until the engine is IDLE or has no enabled step, every lock draw OK. -/
  | runEnc (e : Nat)
  /-- `RUN DEC`: until the decoder is IDLE or has no enabled step. -/
  | runDec
  /-- `LOAD e, [b0, ..., bk]`. -/
  | load (e : Nat) (bs : List Byte)
  /-- `SEND e, [b0, ..., bk]`. -/
  | send (e : Nat) (bs : List Byte)
  /-- `LOOPBACK`: deliver the octets of TXLOG from position `from_` on, those no earlier LOOPBACK delivered. -/
  | loopback (from_ : Nat)
  deriving DecidableEq, Repr

/-- The most steps one command of an engine takes: `7 + len + E` (R132) with 128 bytes, all escaped. -/
def maxEncSteps : Nat := 7 + 128 + 128

/-- A request line's event: the request word of R77. -/
def requestEvent (p : Config) (i : Instr) : List Event :=
  match Sys2Proof.encode p i with
  | .host w => [.host w]
  | .enc _ _ _ => []
  | .dec _ => []
  | .acc _ _ _ => []
  | .link _ => []

/-- `LOAD` from index `k` on. -/
def loadEvents (p : Config) (e : Nat) : Nat → List Byte → List Event
  | _, [] => []
  | k, b :: bs => requestEvent p (.writeIbuf e k b) ++ loadEvents p e (k + 1) bs

/-- The events a line stands for in state `s`. The RUN lines schedule the agent as often as it can move; choices left
over after it stops are waits and change nothing. -/
def ScriptLine.events (s : State) : ScriptLine → List Event
  | .encode e len => requestEvent s.config (.encode e len)
  | .decode maxlen => requestEvent s.config (.decode maxlen)
  | .cancel => requestEvent s.config .cancel
  | .writeIbuf e i v => requestEvent s.config (.writeIbuf e i v)
  | .readObuf i => requestEvent s.config (.readObuf i)
  | .readStatusEnc e => requestEvent s.config (.readStatusEnc e)
  | .readStatusDec => requestEvent s.config .readStatusDec
  | .deliver cs => cs.map .link
  | .stepEnc e d => [.enc e d]
  | .stepDec => [.dec]
  | .runEnc e => List.replicate maxEncSteps (.enc e LockDraw.allOk)
  | .runDec => List.replicate s.rxq.length .dec
  | .load e bs => loadEvents s.config e 0 bs
  | .send e bs => loadEvents s.config e 0 bs ++ requestEvent s.config (.encode e (BitVec.ofNat 8 bs.length))
  | .loopback k => (s.txlog.drop k).map .link

/-- The state after the given events, one step each; none if a step faults or is refused. The events come before
whatever is pending in `s`. -/
def State.runEvents : List Event → State → Option State
  | [], s => some s
  | ev :: evs, s =>
    match step { s with pending := ev :: s.pending } with
    | .next t => State.runEvents evs t
    | .fault _ => none
    | .refused _ => none

/-- Run a script line by line. -/
def State.runScript : List ScriptLine → State → Option State
  | [], s => some s
  | l :: ls, s =>
    match State.runEvents (l.events s) s with
    | some t => State.runScript ls t
    | none => none

end Sys2Proof.Machine
end

