-- ==== Sys2Proof/Safety.lean ====
section
/-! DEFINITION. What counts as a good run: enabled steps, the end of a run, stuck engines, the launch premises (70_reset_and_hazards.md R262, R263), and the invariants of 10_state.md R46. -/
namespace Sys2Proof.Machine

/-! ## Enabled steps (R7, R120, R121, R150) -/

/-- Engine `e` has a step with the lock answering `d`: not IDLE, and in ACQ an OK answer only from a FREE lock. -/
def State.encEnabled (s : State) (e : Nat) (d : LockDraw) : Bool :=
  match s.encs[e]? with
  | none => false
  | some E =>
    match E.phase with
    | .idle => false
    | .acq => d.acq == .fail || s.lock == .free
    | .flush => true
    | .start => true
    | .size => true
    | .body => true
    | .esc2 => true
    | .chk => true
    | .endMark => true
    | .rel => true

/-- The decoder has a step (R150). -/
def State.decEnabled (s : State) : Bool := s.dec.busy && !s.rxq.isEmpty

/-! ## The end of a run (R262) -/

/-- A request word not yet issued. -/
def Event.isHost : Event → Bool
  | .host _ => true
  | .enc _ _ => false
  | .dec => false
  | .link _ => false
  | .reset => false

/-- The run has ended well (R262): every engine IDLE, no fault, no refusal, no request left to issue. -/
def State.endedWell (s : State) : Bool :=
  s.encs.all (fun E => !E.busy) && !s.dec.busy && s.faults == FaultSet.empty && !s.refused
    && s.pending.all (fun ev => !Event.isHost ev)

/-- An engine is stuck (R262): in ACQ on a lock that is held or BROKEN, so that no OK step exists. -/
def State.encStuck (s : State) (e : Nat) : Bool :=
  match s.encs[e]? with
  | none => false
  | some E => E.phase == .acq && s.lock != .free

/-- The decoder is stuck (R262): busy with `RXQ = []`. -/
def State.decStuck (s : State) : Bool := s.dec.busy && s.rxq.isEmpty

/-! ## Refused request words (R86) -/

/-- Every word with the request's `op` and a bit of `reserved` set is refused: REFUSED is set, nothing else changes. -/
def State.refusesReserved (s : State) (op reserved : Word) : Prop :=
  ∀ w : Word, w &&& 0xF0000000#32 = op → w &&& reserved ≠ 0#32 →
    s.runFetched (.host w) = .next { s with refused := true }

/-! ## Launch premises (R263) -/

/-- CLEAN: the reset state of a legal configuration, before any input. DESIGN CHOICE (entry 22): R263 does not say
whether the state a reset event inside a run leaves is CLEAN; that event keeps `draws` and `pending` (entry 15), so here
it is not, unless no octet was drawn and nothing is pending. -/
def State.Clean (s : State) : Prop := ∃ p : Config, p.valid = true ∧ s = State.resetWith p

/-- The octets a schedule delivers, in order. DESIGN CHOICE (entry 21): R263 does not say how octets delivered before a
reset event inside the run count, since reset sets TXLOG to []; here they go on counting. -/
def deliveredOctets : List Event → List Byte
  | [] => []
  | .host _ :: evs => deliveredOctets evs
  | .enc _ _ :: evs => deliveredOctets evs
  | .dec :: evs => deliveredOctets evs
  | .link c :: evs => c :: deliveredOctets evs
  | .reset :: evs => deliveredOctets evs

/-- NO_NOISE: at every point of the run from `s`, every octet delivered so far is an octet of TXLOG.
False of a schedule with a reset event after a delivery (DESIGN CHOICE, entry 21). -/
def NoNoise (s : State) (evs : List Event) : Prop :=
  ∀ pre, pre <+: evs → ∀ t, State.runEvents pre s = some t → ∀ c ∈ deliveredOctets pre, c ∈ t.txlog

/-- LOOPBACK: at every point the octets delivered so far are the first octets of TXLOG, in order, each once, and at
the end they are all of it. False of a schedule with a reset event after a delivery (DESIGN CHOICE,
entry 21). -/
def Loopback (s : State) (evs : List Event) : Prop :=
  (∀ pre, pre <+: evs → ∀ t, State.runEvents pre s = some t → deliveredOctets pre <+: t.txlog)
    ∧ ∀ t, State.runEvents evs s = some t → deliveredOctets evs = t.txlog

/-- LOCK_OK: every lock answer of the schedule is OK. -/
def LockOk (evs : List Event) : Prop := ∀ e d, Event.enc e d ∈ evs → d = LockDraw.allOk

/-- Weak fairness of scheduling (R226), of an endless schedule `σ` and the states `run k` before its `k`-th choice: an
engine whose OK answer stays enabled is eventually picked with it. -/
def WeaklyFair (run : Nat → State) (σ : Nat → Event) : Prop :=
  ∀ e k, (∀ j, k ≤ j → (run j).encEnabled e LockDraw.allOk = true) →
    ∃ j, k ≤ j ∧ σ j = .enc e LockDraw.allOk

/-! ## Invariants (R46) -/

/-- The phases from FLUSH to REL: the engine is mid-frame (R46 item 1). -/
def EncPhase.midFrame : EncPhase → Bool
  | .idle => false
  | .acq => false
  | .flush => true
  | .start => true
  | .size => true
  | .body => true
  | .esc2 => true
  | .chk => true
  | .endMark => true
  | .rel => true

/-- R46 item 1: an engine is mid-frame if and only if it holds the lock; and only an existing engine holds it. -/
def State.LockInv (s : State) : Prop :=
  (∀ e E, s.encs[e]? = some E → (EncPhase.midFrame E.phase = true ↔ s.lock = .held e))
    ∧ ∀ e, s.lock = .held e → e < s.encs.length

/-- R46 item 2, with what each phase adds: before BODY nothing is sent, in BODY a byte is left to send. -/
def Encoder.CountInv (E : Encoder) : Prop :=
  E.len.toNat ≤ 128 ∧ E.idx.toNat ≤ E.len.toNat
    ∧ (E.phase = .body → E.idx.toNat < E.len.toNat)
    ∧ (E.phase = .acq ∨ E.phase = .flush ∨ E.phase = .start ∨ E.phase = .size → E.idx = 0#8)

/-- R46 items 3 and 4. -/
def Decoder.CountInv (D : Decoder) : Prop :=
  D.n.toNat ≤ min D.size.toNat D.maxlen.toNat ∧ (D.pend = false → D.n = 0#8)

/-- R106, R107: a busy engine's result registers read NONE, not done (and `rlen` 0). -/
def State.ResultInv (s : State) : Prop :=
  (∀ E ∈ s.encs, E.busy = true → E.done = false ∧ E.status = .none)
    ∧ (s.dec.busy = true → s.dec.done = false ∧ s.dec.status = .none ∧ s.dec.rlen = 0#8)

/-- The octet spaces keep their canonical form and their bounds (R50). -/
def State.MemInv (s : State) : Prop :=
  (∀ E ∈ s.encs, Memory.wf Config.ibufCap E.ibuf = true) ∧ Memory.wf Config.obufCap s.obuf = true

/-- The octets below `n` were written by this frame's commits; after OK, `rlen` is `n` (R162). -/
def State.ObufInv (s : State) : Prop :=
  (∀ i, i < s.dec.n.toNat → (s.obuf.read i).isSome = true)
    ∧ (s.dec.busy = false → s.dec.status = .ok → s.dec.rlen = s.dec.n)

/-- READ_BODY and BODY_ESC: the decoder is between SIZE and END. -/
def DecPhase.inBody : DecPhase → Bool
  | .idle => false
  | .awaitStart => false
  | .readSize => false
  | .readBody => true
  | .bodyEsc => true

/-- `L` can be the octets committed so far of this frame (R152), dropped ones included: the accumulator is their sum
mod 256, `n` counts those within the bound, and OBUF holds these. -/
def Decoder.HasCommitted (D : Decoder) (obuf : Memory) (L : List Byte) : Prop :=
  D.acc.toNat = (L.map BitVec.toNat).sum % 256 ∧ D.n.toNat = min L.length D.bound
    ∧ ∀ k, k < D.n.toNat → obuf.read k = L[k]?

/-- R46 item 5: in READ_BODY and BODY_ESC the accumulator is the sum mod 256 of the frame's committed octets, of which
OBUF holds the first `n`. -/
def State.SumInv (s : State) : Prop :=
  DecPhase.inBody s.dec.phase = true → ∃ L, s.dec.HasCommitted s.obuf L

/-! ## A frame in progress (R59, R132) -/

/-- What engine `E` has sent of `frame(P)` when it is about to take its next step. -/
def Encoder.sent (o : ControlOctets) (P : List Byte) (E : Encoder) : List Byte :=
  match E.phase with
  | .idle => []
  | .acq => []
  | .flush => []
  | .start => [o.endOctet]
  | .size => [o.endOctet, o.startOctet]
  | .body => [o.endOctet, o.startOctet, E.len] ++ stuffAll o (P.take E.idx.toNat)
  | .esc2 => [o.endOctet, o.startOctet, E.len] ++ stuffAll o (P.take (E.idx.toNat - 1)) ++ [o.escOctet]
  | .chk => [o.endOctet, o.startOctet, E.len] ++ stuffAll o P
  | .endMark => [o.endOctet, o.startOctet, E.len] ++ stuffAll o P ++ [chk P]
  | .rel => frame o P

/-- Engine `E`, mid-frame, has payload `P` (every byte written) and registers that fit what it has sent. -/
def Encoder.carries (o : ControlOctets) (P : List Byte) (E : Encoder) : Prop :=
  EncPhase.midFrame E.phase = true
    ∧ P.length ≤ 128 ∧ E.len = BitVec.ofNat 8 P.length
    ∧ (∀ k, k < P.length → E.ibuf.read k = P[k]?)
    ∧ E.idx.toNat ≤ P.length
    ∧ E.acc.toNat = ((P.take E.idx.toNat).map BitVec.toNat).sum % 256
    ∧ (E.phase = .flush ∨ E.phase = .start ∨ E.phase = .size → E.idx = 0#8)
    ∧ (E.phase = .body → E.idx.toNat < P.length)
    ∧ (E.phase = .esc2 → ∃ k b, E.idx.toNat = k + 1 ∧ P[k]? = some b ∧ stuff o b = [o.escOctet, E.sub])
    ∧ (E.phase = .chk ∨ E.phase = .endMark ∨ E.phase = .rel → E.idx.toNat = P.length)

/-- Engine `e` holds the lock and is sending `frame(P)`; `pre` is what TXLOG held before the frame. -/
def State.Sending (s : State) (e : Nat) (P pre : List Byte) : Prop :=
  s.lock = .held e
    ∧ ∃ E, s.encs[e]? = some E ∧ E.carries s.ctl P ∧ s.txlog = pre ++ E.sent s.ctl P

end Sys2Proof.Machine
end

