-- ==== Sys2Proof/Certificates/Slice0/Obligations.lean ====
section
/-! DEFINITION. The statements for the provers, from the numbered rules of spec/. Effects are written as the whole next state, so each says its frame: every field not named is unchanged. -/

open Sys2Proof Sys2Proof.Machine

/-! ## Host requests (40_commands.md) -/

/-- R101. ENCODE on an idle engine latches the length and moves to ACQ, or finishes with PAYLOAD_TOO_LARGE above 128;
a busy engine records CMD_BUSY only; an engine that does not exist, or a reserved bit, is refused. (The response word
stands in the model's field `response`, entry 8.) -/
def Obligations.EncodeStartsEngineOrRejects : Prop :=
  ∀ (s : State) (e : Nat) (len : Byte),
    (∀ E, s.encs[e]? = some E → E.phase = .idle → len.toNat ≤ 128 →
      exec (.encode e len) s = .next { s with
        encs := s.encs.set e { E with
          phase := .acq, len := len, idx := 0#8, sub := 0#8, acc := 0#8, status := .none, done := false }
        response := some 0#32 })
    ∧ (∀ E, s.encs[e]? = some E → E.phase = .idle → 128 < len.toNat →
      exec (.encode e len) s = .next { s with
        encs := s.encs.set e { E with status := .payloadTooLarge, done := true }
        response := some 0#32 })
    ∧ (∀ E, s.encs[e]? = some E → E.phase ≠ .idle →
      exec (.encode e len) s = .next { s with faults := { s.faults with cmdBusy := true } })
    ∧ (s.encs[e]? = none → exec (.encode e len) s = .next { s with refused := true })
    ∧ s.refusesReserved 0x00000000#32 0x000FFF00#32

/-- R102. DECODE on the idle decoder re-initialises every decoder register and moves to AWAIT_START; a busy decoder
records CMD_BUSY only. -/
def Obligations.DecodeReinitialisesDecoder : Prop :=
  ∀ (s : State) (maxlen : Byte),
    (s.dec.phase = .idle →
      exec (.decode maxlen) s = .next { s with
        dec := { phase := .awaitStart, size := 0#8, maxlen := maxlen, acc := 0#8, n := 0#8, pend := false,
                 prev := 0#8, status := .none, done := false, rlen := 0#8 }
        response := some 0#32 })
    ∧ (s.dec.phase ≠ .idle →
      exec (.decode maxlen) s = .next { s with faults := { s.faults with cmdBusy := true } })
    ∧ s.refusesReserved 0x10000000#32 0x0FFFFF00#32

/-- R103. CANCEL ends a waiting decode with CANCELLED; at any other time it records CANCEL_NOT_WAITING only. -/
def Obligations.CancelOnlyAtTheWait : Prop :=
  ∀ s : State,
    (s.dec.phase ≠ .idle → s.rxq = [] →
      exec .cancel s = .next { s with
        dec := { s.dec with phase := .idle, status := .cancelled, done := true, rlen := 0#8 }
        response := some 0#32 })
    ∧ (s.dec.phase = .idle ∨ s.rxq ≠ [] →
      exec .cancel s = .next { s with faults := { s.faults with cancelNotWaiting := true } })

/-- R104. WRITE_IBUF writes one byte of an idle engine's payload buffer: that index reads as written, every other index
as before, and nothing else of the block changes; a busy engine records IBUF_HAZARD only. -/
def Obligations.WriteIbufStoresOneByte : Prop :=
  ∀ (s : State) (e i : Nat) (v : Byte),
    (∀ E, i < 128 → s.encs[e]? = some E → E.phase = .idle →
      ∃ m : Memory, exec (.writeIbuf e i v) s = .next { s with
          encs := s.encs.set e { E with ibuf := m }, response := some 0#32 }
        ∧ m.read i = some v ∧ ∀ k, k ≠ i → m.read k = E.ibuf.read k)
    ∧ (∀ E, i < 128 → s.encs[e]? = some E → E.phase ≠ .idle →
      exec (.writeIbuf e i v) s = .next { s with faults := { s.faults with ibufHazard := true } })
    ∧ (128 ≤ i ∨ s.encs[e]? = none → exec (.writeIbuf e i v) s = .next { s with refused := true })
    ∧ s.refusesReserved 0x30000000#32 0x000F8000#32

/-- R105. READ_OBUF answers the stored octet below `rlen` of a good result, and otherwise some octet, about which
nothing is said; a busy decoder records OBUF_HAZARD only. Only the response (and, for a draw, the model's count of
draws, entry 6) changes. -/
def Obligations.ReadObufAnswersGoodResultOrDraw : Prop :=
  ∀ (s : State) (i : Nat), i < 255 →
    (∀ v, s.dec.phase = .idle → s.dec.status = .ok → i < s.dec.rlen.toNat → s.obuf.read i = some v →
      exec (.readObuf i) s = .next { s with response := some (v.setWidth 32) })
    ∧ (s.dec.phase = .idle → (s.dec.status ≠ .ok ∨ s.dec.rlen.toNat ≤ i ∨ s.obuf.read i = none) →
      ∃ (v : Byte) (k : Nat), exec (.readObuf i) s = .next { s with response := some (v.setWidth 32), draws := k })
    ∧ (s.dec.phase ≠ .idle →
      exec (.readObuf i) s = .next { s with faults := { s.faults with obufHazard := true } })
    ∧ exec (.readObuf 255) s = .next { s with refused := true }

/-- R106, with the word's fields of R85: [16] done, [15:8] 0, [7:0] status, the rest 0. -/
def Obligations.ReadStatusEncAnswersStatusWord : Prop :=
  ∀ (s : State) (e : Nat),
    (∀ E, s.encs[e]? = some E →
      exec (.readStatusEnc e) s = .next { s with
        response := some (BitVec.ofNat 32 (E.done.toNat * 2 ^ 16 + E.status.code.toNat)) })
    ∧ (s.encs[e]? = none → exec (.readStatusEnc e) s = .next { s with refused := true })
    ∧ s.refusesReserved 0x50000000#32 0x000FFFFF#32

/-- R107, with the word's fields of R85: [16] done, [15:8] rlen, [7:0] status, the rest 0. -/
def Obligations.ReadStatusDecAnswersStatusWord : Prop :=
  ∀ s : State,
    exec .readStatusDec s = .next { s with
        response := some (BitVec.ofNat 32
          (s.dec.done.toNat * 2 ^ 16 + s.dec.rlen.toNat * 2 ^ 8 + s.dec.status.code.toNat)) }
    ∧ s.refusesReserved 0x60000000#32 0x0FFFFFFF#32

/-- R86, of the reserved ops: 0x7 and 0x8 to 0xF set REFUSED and change nothing else. -/
def Obligations.ReservedOpsOnlySetRefused : Prop :=
  ∀ (s : State) (r7 : BitVec 28) (r8 : BitVec 31),
    exec (.reservedOp7 r7) s = .next { s with refused := true }
      ∧ exec (.reservedOp8ToF r8) s = .next { s with refused := true }

/-- R87: the numeric status codes. -/
def Obligations.StatusCodesAreNumbered : Prop :=
  Status.code .ok = 0x00#8 ∧ Status.code .payloadTooLarge = 0x01#8 ∧ Status.code .lockAcquireFailed = 0x02#8
    ∧ Status.code .lockReleaseFailed = 0x03#8 ∧ Status.code .checksumMismatch = 0x04#8
    ∧ Status.code .malformedEscape = 0x05#8 ∧ Status.code .cancelled = 0x06#8 ∧ Status.code .none = 0xFF#8

/-! ## Encoder steps (41_encoder.md) -/

/-- R121. ENC.ACQ: OK takes a FREE lock and moves to FLUSH; on any other lock there is no OK step and the engine waits;
FAIL ends the command with LOCK_ACQUIRE_FAILED, the lock and TXLOG unchanged. -/
def Obligations.EncAcqTakesFreeLockWaitsOrFails : Prop :=
  ∀ (s : State) (e : Nat) (E : Encoder), s.encs[e]? = some E → E.phase = .acq →
    (s.lock = .free →
      exec (.encAcq e .ok) s = .next { s with lock := .held e, encs := s.encs.set e { E with phase := .flush } })
    ∧ (s.lock ≠ .free → exec (.encAcq e .ok) s = .next s)
    ∧ exec (.encAcq e .fail) s = .next { s with
        encs := s.encs.set e { E with phase := .idle, status := .lockAcquireFailed, done := true } }

/-- R122, R123, R130. ENC.FLUSH, ENC.START and ENC.END emit END, START and END, and move on. -/
def Obligations.EncControlStepsEmitTheirOctet : Prop :=
  ∀ (s : State) (e : Nat) (E : Encoder), s.encs[e]? = some E →
    (E.phase = .flush → exec (.encFlush e) s = .next { s with
      txlog := s.txlog ++ [s.ctl.endOctet], encs := s.encs.set e { E with phase := .start } })
    ∧ (E.phase = .start → exec (.encStart e) s = .next { s with
      txlog := s.txlog ++ [s.ctl.startOctet], encs := s.encs.set e { E with phase := .size } })
    ∧ (E.phase = .endMark → exec (.encEnd e) s = .next { s with
      txlog := s.txlog ++ [s.ctl.endOctet], encs := s.encs.set e { E with phase := .rel } })

/-- R124. ENC.SIZE emits the length, unstuffed; a length of 0 skips BODY. -/
def Obligations.EncSizeEmitsLength : Prop :=
  ∀ (s : State) (e : Nat) (E : Encoder), s.encs[e]? = some E → E.phase = .size →
    (E.len = 0#8 → exec (.encSize e) s = .next { s with
      txlog := s.txlog ++ [E.len], encs := s.encs.set e { E with phase := .chk } })
    ∧ (E.len ≠ 0#8 → exec (.encSize e) s = .next { s with
      txlog := s.txlog ++ [E.len], encs := s.encs.set e { E with phase := .body } })

/-- R125. ENC.BODY.LIT: a payload byte that is neither END nor ESC (and that the buffer holds, or that is a draw for a
byte never written) is summed mod 256, emitted as it is, and the index moves on. -/
def Obligations.EncBodyLitEmitsTheByte : Prop :=
  ∀ (s : State) (e : Nat) (E : Encoder) (b : Byte), s.encs[e]? = some E → E.phase = .body →
    (E.ibuf.read E.idx.toNat = some b ∨ E.ibuf.read E.idx.toNat = none) →
    b ≠ s.ctl.endOctet → b ≠ s.ctl.escOctet →
    exec (.encBodyLit e b) s = .next { s with
      txlog := s.txlog ++ [b]
      encs := s.encs.set e { E with
        acc := BitVec.ofNat 8 ((E.acc.toNat + b.toNat) % 256)
        idx := E.idx + 1#8
        phase := if E.idx + 1#8 = E.len then .chk else .body } }

/-- R126, R127. ENC.BODY.ESCEND and ENC.BODY.ESCESC: the original byte is summed, ESC is emitted, the substitute code is
remembered for ENC.ESC2. -/
def Obligations.EncBodyEscapesControlBytes : Prop :=
  ∀ (s : State) (e : Nat) (E : Encoder), s.encs[e]? = some E → E.phase = .body →
    ((E.ibuf.read E.idx.toNat = some s.ctl.endOctet ∨ E.ibuf.read E.idx.toNat = none) →
      exec (.encBodyEscEnd e) s = .next { s with
        txlog := s.txlog ++ [s.ctl.escOctet]
        encs := s.encs.set e { E with
          acc := BitVec.ofNat 8 ((E.acc.toNat + s.ctl.endOctet.toNat) % 256)
          sub := s.ctl.escEnd, idx := E.idx + 1#8, phase := .esc2 } })
    ∧ ((E.ibuf.read E.idx.toNat = some s.ctl.escOctet ∨ E.ibuf.read E.idx.toNat = none) →
      exec (.encBodyEscEsc e) s = .next { s with
        txlog := s.txlog ++ [s.ctl.escOctet]
        encs := s.encs.set e { E with
          acc := BitVec.ofNat 8 ((E.acc.toNat + s.ctl.escOctet.toNat) % 256)
          sub := s.ctl.escEsc, idx := E.idx + 1#8, phase := .esc2 } })

/-- R128, R129. ENC.ESC2 emits the substitute code and leaves the accumulator alone; ENC.CHK emits the accumulator's
low seven bits. -/
def Obligations.EncEsc2AndChkEmit : Prop :=
  ∀ (s : State) (e : Nat) (E : Encoder), s.encs[e]? = some E →
    (E.phase = .esc2 → exec (.encEsc2 e) s = .next { s with
      txlog := s.txlog ++ [E.sub]
      encs := s.encs.set e { E with phase := if E.idx = E.len then .chk else .body } })
    ∧ (E.phase = .chk → exec (.encChk e) s = .next { s with
      txlog := s.txlog ++ [BitVec.ofNat 8 (E.acc.toNat % 128)]
      encs := s.encs.set e { E with phase := .endMark } })

/-- R131. ENC.REL: OK frees the lock and finishes OK; FAIL leaves it FREE or BROKEN and finishes LOCK_RELEASE_FAILED. -/
def Obligations.EncRelReleasesOrFails : Prop :=
  ∀ (s : State) (e : Nat) (E : Encoder), s.encs[e]? = some E → E.phase = .rel →
    exec (.encRel e .ok) s = .next { s with
      lock := .free, encs := s.encs.set e { E with phase := .idle, status := .ok, done := true } }
    ∧ exec (.encRel e .failFree) s = .next { s with
      lock := .free, encs := s.encs.set e { E with phase := .idle, status := .lockReleaseFailed, done := true } }
    ∧ exec (.encRel e .failBroken) s = .next { s with
      lock := .broken, encs := s.encs.set e { E with phase := .idle, status := .lockReleaseFailed, done := true } }

/-! ## Decoder steps (42_decoder.md) -/

/-- R153, R154. In AWAIT_START, START moves to READ_SIZE and any other octet is discarded. -/
def Obligations.DecAwaitStartFindsStart : Prop :=
  ∀ (s : State) (c : Byte) (rest : List Byte), s.dec.phase = .awaitStart → s.rxq = c :: rest →
    (c = s.ctl.startOctet →
      exec .decAsStart s = .next { s with rxq := rest, dec := { s.dec with phase := .readSize } })
    ∧ (c ≠ s.ctl.startOctet → exec (.decAsOther c) s = .next { s with rxq := rest })

/-- R155. DEC.RS.ANY stores any octet as SIZE and clears the sum, the count and the candidate. -/
def Obligations.DecReadSizeTakesAnyOctet : Prop :=
  ∀ (s : State) (c : Byte) (rest : List Byte), s.dec.phase = .readSize → s.rxq = c :: rest →
    exec (.decRsAny c) s = .next { s with
      rxq := rest
      dec := { s.dec with size := c, acc := 0#8, n := 0#8, pend := false, phase := .readBody } }

/-- R156. DEC.RB.END: OK exactly when there is a candidate and it equals the sum mod 128; `rlen` is then `n`, else 0. -/
def Obligations.DecEndComparesCandidate : Prop :=
  ∀ (s : State) (rest : List Byte), s.dec.phase = .readBody → s.rxq = s.ctl.endOctet :: rest →
    (s.dec.pend = true → s.dec.prev.toNat = s.dec.acc.toNat % 128 →
      exec .decRbEnd s = .next { s with
        rxq := rest, dec := { s.dec with phase := .idle, status := .ok, done := true, rlen := s.dec.n } })
    ∧ (s.dec.pend = false ∨ s.dec.prev.toNat ≠ s.dec.acc.toNat % 128 →
      exec .decRbEnd s = .next { s with
        rxq := rest, dec := { s.dec with phase := .idle, status := .checksumMismatch, done := true, rlen := 0#8 } })

/-- R157, R161. An ESC in the body moves to BODY_ESC; there, an octet that is no substitute code ends the call with
MALFORMED_ESCAPE. -/
def Obligations.DecEscapeOpensAndMalformedEnds : Prop :=
  ∀ (s : State) (c : Byte) (rest : List Byte), s.rxq = c :: rest →
    (s.dec.phase = .readBody → c = s.ctl.escOctet →
      exec .decRbEsc s = .next { s with rxq := rest, dec := { s.dec with phase := .bodyEsc } })
    ∧ (s.dec.phase = .bodyEsc → c ≠ s.ctl.escEnd → c ≠ s.ctl.escEsc →
      exec (.decBeBad c) s = .next { s with
        rxq := rest, dec := { s.dec with phase := .idle, status := .malformedEscape, done := true, rlen := 0#8 } })

/-- R151, R152. Commit: the old candidate (if any) is summed, and stored at index `n` only below
`min(size, maxlen)`; the new octet becomes the candidate. -/
def Obligations.CommitSumsAndStoresWithinBound : Prop :=
  ∀ (s : State) (d : Byte),
    (s.dec.pend = false → s.commit d = { s with dec := { s.dec with prev := d, pend := true } })
    ∧ (s.dec.pend = true → s.dec.n.toNat < min s.dec.size.toNat s.dec.maxlen.toNat →
      ∃ m : Memory,
        s.commit d = { s with
          dec := { s.dec with
            acc := BitVec.ofNat 8 ((s.dec.acc.toNat + s.dec.prev.toNat) % 256), n := s.dec.n + 1#8, prev := d }
          obuf := m }
        ∧ m.read s.dec.n.toNat = some s.dec.prev ∧ ∀ k, k ≠ s.dec.n.toNat → m.read k = s.obuf.read k)
    ∧ (s.dec.pend = true → min s.dec.size.toNat s.dec.maxlen.toNat ≤ s.dec.n.toNat →
      s.commit d = { s with
        dec := { s.dec with
          acc := BitVec.ofNat 8 ((s.dec.acc.toNat + s.dec.prev.toNat) % 256), prev := d } })

/-- R158, R159, R160. An ordinary body octet is committed as it is; after ESC, the substitute codes commit END and ESC. -/
def Obligations.DecBodyOctetsAreCommitted : Prop :=
  ∀ (s : State) (c : Byte) (rest : List Byte), s.rxq = c :: rest →
    (s.dec.phase = .readBody → c ≠ s.ctl.endOctet → c ≠ s.ctl.escOctet →
      exec (.decRbData c) s = .next ({ s with rxq := rest }.commit c))
    ∧ (s.dec.phase = .bodyEsc → c = s.ctl.escEnd → ∃ t, t = { s with rxq := rest }.commit s.ctl.endOctet
      ∧ exec .decBeEscEnd s = .next { t with dec := { t.dec with phase := .readBody } })
    ∧ (s.dec.phase = .bodyEsc → c = s.ctl.escEsc → ∃ t, t = { s with rxq := rest }.commit s.ctl.escOctet
      ∧ exec .decBeEscEsc s = .next { t with dec := { t.dec with phase := .readBody } })

/-! ## The accumulator and the link (43_checksum.md, 40_commands.md R108) -/

/-- R191, R192. ACC.CLEAR and ACC.ADD at either instance; the identity that makes the accumulator's width irrelevant,
and what it gives for a sequence of ADDs from 0. -/
def Obligations.AccClearAndAdd : Prop :=
  (∀ (s : State) (d : Byte),
    exec (.accClear .dec) s = .next { s with dec := { s.dec with acc := 0#8 } }
    ∧ exec (.accAdd .dec d) s = .next { s with
        dec := { s.dec with acc := BitVec.ofNat 8 ((s.dec.acc.toNat + d.toNat) % 256) } }
    ∧ ∀ e E, s.encs[e]? = some E →
      exec (.accClear (.enc e)) s = .next { s with encs := s.encs.set e { E with acc := 0#8 } }
      ∧ exec (.accAdd (.enc e) d) s = .next { s with
          encs := s.encs.set e { E with acc := BitVec.ofNat 8 ((E.acc.toNat + d.toNat) % 256) } })
  ∧ (∀ w a d : Nat, 7 ≤ w → ((a % 2 ^ w + d) % 2 ^ w) % 128 = (a + d) % 128)
  ∧ ∀ (w : Nat) (ds : List Nat), 7 ≤ w → ds.foldl (fun a d => (a + d) % 2 ^ w) 0 % 128 = ds.sum % 128

/-- R193, R194. ACC.FOLD puts out the low seven bits, ACC.CMP whether they equal the whole octet `x`; the register is
unchanged. (The output stands in the model's field `accOut`, entry 10.) -/
def Obligations.AccFoldAndCmpOnlyPutOut : Prop :=
  ∀ (s : State) (x : Byte),
    exec (.accFold .dec) s = .next { s with accOut := .fold (BitVec.ofNat 8 (s.dec.acc.toNat % 128)) }
    ∧ exec (.accCmp .dec x) s = .next { s with accOut := .eq (decide (s.dec.acc.toNat % 128 = x.toNat)) }
    ∧ ∀ e E, s.encs[e]? = some E →
      exec (.accFold (.enc e)) s = .next { s with accOut := .fold (BitVec.ofNat 8 (E.acc.toNat % 128)) }
      ∧ exec (.accCmp (.enc e) x) s = .next { s with accOut := .eq (decide (E.acc.toNat % 128 = x.toNat)) }

/-- R108. LINK.DELIVER appends the octet to RXQ, in every state. -/
def Obligations.LinkDeliverAppends : Prop :=
  ∀ (s : State) (c : Byte), exec (.linkDeliver c) s = .next { s with rxq := s.rxq ++ [c] }

/-! ## Encodings (30_encoding.md) -/

/-- Decode and encode agree, for every row of the opcode table: no operand bit is dropped. -/
def Obligations.DecodeOfEncode : Prop :=
  ∀ (p : Config) (i : Instr), p.valid = true → i.wellFormed p = true → decode p (encode p i) = .ok i

/-- R78 to R84, R86. The request decoder, read from its fields, is the masks and matches of the rules: a word is a
request exactly when it passes the request's mask, names an existing engine, and is not READ_OBUF of 255. -/
def Obligations.HostWordsFollowMasks : Prop :=
  ∀ (p : Config) (w : Word),
    decode p (.host w) =
      if w &&& 0xF00FFF00#32 = 0x00000000#32 then
        (if (w.extractLsb' 20 8).toNat < p.nEnc
         then .ok (.encode (w.extractLsb' 20 8).toNat (w.extractLsb' 0 8)) else .error .noSuchEngine)
      else if w &&& 0xFFFFFF00#32 = 0x10000000#32 then .ok (.decode (w.extractLsb' 0 8))
      else if w = 0x20000000#32 then .ok .cancel
      else if w &&& 0xF00F8000#32 = 0x30000000#32 then
        (if (w.extractLsb' 20 8).toNat < p.nEnc
         then .ok (.writeIbuf (w.extractLsb' 20 8).toNat (w.extractLsb' 8 8).toNat (w.extractLsb' 0 8))
         else .error .noSuchEngine)
      else if w &&& 0xFFFF00FF#32 = 0x40000000#32 then
        (if w.extractLsb' 8 8 = 0xFF#8 then .error .obufIndex else .ok (.readObuf (w.extractLsb' 8 8).toNat))
      else if w &&& 0xF00FFFFF#32 = 0x50000000#32 then
        (if (w.extractLsb' 20 8).toNat < p.nEnc
         then .ok (.readStatusEnc (w.extractLsb' 20 8).toNat) else .error .noSuchEngine)
      else if w = 0x60000000#32 then .ok .readStatusDec
      else if w &&& 0xF0000000#32 = 0x70000000#32 then .ok (.reservedOp7 (w.extractLsb' 0 28))
      else if w &&& 0x80000000#32 = 0x80000000#32 then .ok (.reservedOp8ToF (w.extractLsb' 0 31))
      else .error .reservedBits

/-- R88, R89. The octet classes select exactly one step of the phase, the tests in the order listed. -/
def Obligations.SelectWordsFollowTheClasses : Prop :=
  ∀ (p : Config) (c : Byte) (e : Nat) (d : LockDraw), e < p.nEnc →
    decode p (.dec (decWord .awaitStart c))
      = .ok (if c = p.octets.startOctet then .decAsStart else .decAsOther c)
    ∧ decode p (.dec (decWord .readSize c)) = .ok (.decRsAny c)
    ∧ decode p (.dec (decWord .readBody c))
      = .ok (if c = p.octets.endOctet then .decRbEnd else if c = p.octets.escOctet then .decRbEsc else .decRbData c)
    ∧ decode p (.dec (decWord .bodyEsc c))
      = .ok (if c = p.octets.escEnd then .decBeEscEnd else if c = p.octets.escEsc then .decBeEscEsc else .decBeBad c)
    ∧ decode p (.enc e (encWord .body c) d)
      = .ok (if c = p.octets.endOctet then .encBodyEscEnd e
             else if c = p.octets.escOctet then .encBodyEscEsc e else .encBodyLit e c)

/-- Words written out from the encodings decode to the instructions they stand for (95_test_vectors.md §2, and the
opcode table's select words under REF). -/
def Obligations.SampleWordsDecode : Prop :=
  decode Config.ref (.host 0x00100004#32) = .ok (.encode 1 4#8)
    ∧ decode Config.ref (.host 0x100000FF#32) = .ok (.decode 0xFF#8)
    ∧ decode Config.ref (.host 0x30107FFF#32) = .ok (.writeIbuf 1 127 0xFF#8)
    ∧ decode Config.ref (.host 0x40000100#32) = .ok (.readObuf 1)
    ∧ decode Config.ref (.host 0x50100000#32) = .ok (.readStatusEnc 1)
    ∧ decode Config.ref (.host 0x00200004#32) = .error .noSuchEngine
    ∧ decode Config.ref (.enc 1 0x5C0#12 LockDraw.allOk) = .ok (.encBodyEscEnd 1)
    ∧ decode Config.ref (.dec 0x4DD#11) = .ok .decBeEscEsc
    ∧ decode Config.ref (.acc .dec 0b10#2 0#8) = .ok (.accFold .dec)

/-! ## The step (00_scope.md R6, R7) -/

/-- A step runs the instruction that the picked agent's word decodes to: a request, an engine's step (its payload byte
read, or drawn if never written), a decoder's step, a delivery, a bare micro-operation. A request word that decodes to
nothing is refused. (The list of choices `pending` and the interface `micro` are the model's, entries 3 and 10.) -/
def Obligations.StepRunsTheDecodedInstruction : Prop :=
  ∀ (s : State) (i : Instr), s.config.valid = true →
    (∀ w rest, s.micro = none → s.pending = .host w :: rest → decode s.config (.host w) = .ok i →
      step s = exec i { s with pending := rest })
    ∧ (∀ w rest r, s.micro = none → s.pending = .host w :: rest → decode s.config (.host w) = .error r →
      step s = .next { s with pending := rest, refused := true })
    ∧ (∀ e d rest E, s.micro = none → s.pending = .enc e d :: rest → s.encs[e]? = some E → E.phase ≠ .body →
      decode s.config (.enc e (encWord E.phase 0#8) d) = .ok i → step s = exec i { s with pending := rest })
    ∧ (∀ e d rest E b, s.micro = none → s.pending = .enc e d :: rest → s.encs[e]? = some E → E.phase = .body →
      E.ibuf.read E.idx.toNat = some b → decode s.config (.enc e (encWord .body b) d) = .ok i →
      step s = exec i { s with pending := rest })
    ∧ (∀ e d rest E, s.micro = none → s.pending = .enc e d :: rest → s.encs[e]? = some E → E.phase = .body →
      E.ibuf.read E.idx.toNat = none →
      decode s.config (.enc e (encWord .body (Config.freeByte s.draws)) d) = .ok i →
      step s = exec i { s with pending := rest, draws := s.draws + 1 })
    ∧ (∀ rest c q, s.micro = none → s.pending = .dec :: rest → s.rxq = c :: q →
      decode s.config (.dec (decWord s.dec.phase c)) = .ok i → step s = exec i { s with pending := rest })
    ∧ (∀ c rest, s.micro = none → s.pending = .link c :: rest →
      step s = exec (.linkDeliver c) { s with pending := rest })
    ∧ (∀ m, s.micro = some m → decode s.config (.acc m.inst m.op m.operand) = .ok i →
      step s = exec i { s with micro := none })

/-- R163 and R7 "not enabled": the model's wait (entry 4). With nothing pending nothing moves; picking the decoder while
it is idle or `RXQ = []`, an idle engine, or (with the answer OK) an engine in ACQ on a lock that is not FREE, changes
nothing but the list of choices. -/
def Obligations.AgentsWithoutAnEnabledStepWait : Prop :=
  ∀ s : State, s.config.valid = true → s.micro = none →
    (s.pending = [] → step s = .next s)
    ∧ (∀ rest, s.pending = .dec :: rest → s.dec.phase = .idle ∨ s.rxq = [] → step s = .next { s with pending := rest })
    ∧ (∀ e d rest E, s.pending = .enc e d :: rest → s.encs[e]? = some E → E.phase = .idle →
      step s = .next { s with pending := rest })
    ∧ (∀ e d rest E, s.pending = .enc e d :: rest → s.encs[e]? = some E → E.phase = .acq → d.acq = .ok →
      s.lock ≠ .free → step s = .next { s with pending := rest })

/-- R71, R219: a step is refused exactly when the configuration breaks K1 to K5 or the range of `N_ENC`; no request and
no engine step is ever refused in the model's third outcome. -/
def Obligations.StepRefusesExactlyBadConfigurations : Prop :=
  ∀ s : State, (∃ r, step s = .refused r) ↔
    ¬(s.ctl.startOctet ≠ s.ctl.endOctet ∧ s.ctl.startOctet ≠ s.ctl.escOctet
      ∧ s.ctl.endOctet ≠ s.ctl.escOctet ∧ s.ctl.escEnd ≠ s.ctl.escEsc
      ∧ s.ctl.escEnd ≠ s.ctl.endOctet ∧ s.ctl.escEnd ≠ s.ctl.escOctet
      ∧ s.ctl.escEsc ≠ s.ctl.endOctet ∧ s.ctl.escEsc ≠ s.ctl.escOctet
      ∧ 0x81 ≤ s.ctl.endOctet.toNat ∧ 0x81 ≤ s.ctl.escOctet.toNat
      ∧ 1 ≤ s.encs.length ∧ s.encs.length ≤ 256)

/-- The step faults only on a choice or a micro-operation that names an engine which does not exist (the model's choice,
entry 12): no selection of an existing agent stops the block. -/
def Obligations.StepFaultsOnlyWithoutTheEngine : Prop :=
  ∀ (s : State) (f : Fault), step s = .fault f →
    f = .noSuchEngine
      ∧ ((∃ e d rest, s.micro = none ∧ s.pending = .enc e d :: rest ∧ s.encs.length ≤ e)
        ∨ ∃ m e, s.micro = some m ∧ m.inst = .enc e ∧ s.encs.length ≤ e)

/-- R47: every register's value after reset, for every configuration. (That every
octet of IBUF and OBUF, which R47 leaves unspecified, is one never written and holds no value is the model's choice,
entry 7.) -/
def Obligations.ResetValues : Prop :=
  ∀ p : Config, ∃ t, t = State.resetWith p
    ∧ t.ctl = p.octets ∧ t.encs.length = p.nEnc
    ∧ (∀ E ∈ t.encs, E.phase = .idle ∧ E.len = 0#8 ∧ E.idx = 0#8 ∧ E.sub = 0#8 ∧ E.acc = 0#8
        ∧ E.status.code = 0xFF#8 ∧ E.done = false ∧ ∀ k, E.ibuf.read k = none)
    ∧ t.dec.phase = .idle ∧ t.dec.size = 0#8 ∧ t.dec.maxlen = 0#8 ∧ t.dec.acc = 0#8 ∧ t.dec.n = 0#8
    ∧ t.dec.pend = false ∧ t.dec.prev = 0#8 ∧ t.dec.status.code = 0xFF#8 ∧ t.dec.done = false ∧ t.dec.rlen = 0#8
    ∧ (∀ k, t.obuf.read k = none) ∧ t.lock = .free ∧ t.txlog = [] ∧ t.rxq = []
    ∧ (∀ r, t.faults.mem r = false) ∧ t.refused = false

/-- The reset event (R250) takes effect as a step: every register back at its reset value, whatever it held; the
configuration, the inputs to come and the count of draws stay (the model's choice, entry 15). -/
def Obligations.ResetEventRestoresResetValues : Prop :=
  ∀ (s : State) (rest : List Event), s.config.valid = true → s.micro = none → s.pending = .reset :: rest →
    step s = .next { State.resetWith s.config with draws := s.draws, pending := rest }

/-! ## Invariants (10_state.md R46) -/

/-- The reset state of every configuration meets every invariant below; `State.reset` is the one of the reference
configuration. -/
def Obligations.ResetMeetsTheInvariants : Prop :=
  State.reset = State.resetWith Config.ref ∧ ∀ p : Config, ∃ s, s = State.resetWith p
    ∧ s.LockInv ∧ (∀ E ∈ s.encs, E.CountInv) ∧ s.dec.CountInv ∧ s.ObufInv ∧ s.ResultInv ∧ s.MemInv ∧ s.SumInv

/-- R46 item 1: every step keeps "an engine is mid-frame if and only if it holds the lock". -/
def Obligations.StepKeepsLockInvariant : Prop :=
  ∀ s t : State, s.LockInv → step s = .next t → t.LockInv

/-- R46 item 2 for every engine, with what each phase adds: every step keeps it. -/
def Obligations.StepKeepsEncoderCounts : Prop :=
  ∀ s t : State, (∀ E ∈ s.encs, E.CountInv) → step s = .next t → ∀ E ∈ t.encs, E.CountInv

/-- R46 items 3 and 4, and that the octets below `n` are stored and `rlen` is `n` after OK: every step keeps them. -/
def Obligations.StepKeepsDecoderCounts : Prop :=
  ∀ s t : State, s.dec.CountInv → s.ObufInv → step s = .next t → t.dec.CountInv ∧ t.ObufInv

/-- R50: every step keeps the octet spaces in their canonical form and inside their index ranges. -/
def Obligations.StepKeepsOctetSpaces : Prop :=
  ∀ s t : State, s.MemInv → step s = .next t → t.MemInv

/-- R106, R107: while an engine is busy its result reads NONE and not done (and `rlen` 0); every step keeps it. -/
def Obligations.StepKeepsBusyResults : Prop :=
  ∀ s t : State, s.ResultInv → step s = .next t → t.ResultInv

/-- R46 item 5, with R152. In READ_BODY and BODY_ESC the accumulator is the sum mod 256 of the octets `L` committed of
this frame, the dropped ones included, `n = min(len L, bound)`, and OBUF below `n` is the first `n` of `L`. Entering the
body, `L` is empty; inside it every step keeps `L` (and the candidate, if there is one), or appends the old candidate.
Not so where a bare micro-operation stands at the accumulator (entry 10), and no step puts one there. -/
def Obligations.StepKeepsRunningSum : Prop :=
  ∀ (s t : State) (L : List Byte), s.micro = none →
    (DecPhase.inBody s.dec.phase = true → s.dec.HasCommitted s.obuf L) → step s = .next t →
    t.micro = none
      ∧ (DecPhase.inBody s.dec.phase = false → DecPhase.inBody t.dec.phase = true →
          t.dec.pend = false ∧ t.dec.HasCommitted t.obuf [])
      ∧ (DecPhase.inBody s.dec.phase = true → DecPhase.inBody t.dec.phase = true →
          (t.dec.HasCommitted t.obuf L ∧ (s.dec.pend = true → t.dec.pend = true ∧ t.dec.prev = s.dec.prev))
            ∨ (s.dec.pend = true ∧ t.dec.HasCommitted t.obuf (L ++ [s.dec.prev])))

/-! ## Whole-machine rules -/

/-- R20: the configuration is fixed when the block is built: no step changes an octet of it or the number of engines. -/
def Obligations.ConfigurationNeverChanges : Prop :=
  ∀ s t : State, step s = .next t → t.ctl = s.ctl ∧ t.encs.length = s.encs.length

/-- R40, R225, R250: recorded faults, REFUSED and a BROKEN lock stay until the reset event. -/
def Obligations.StickyUntilReset : Prop :=
  ∀ s t : State, s.LockInv → step s = .next t → s.pending.head? ≠ some .reset →
    (∀ r, s.faults.mem r = true → t.faults.mem r = true)
      ∧ (s.refused = true → t.refused = true) ∧ (s.lock = .broken → t.lock = .broken)

/-- R133: a step that emits is a step of the engine that holds the lock, and it emits one octet; TXLOG changes in no
other way until reset (R38). -/
def Obligations.EmitOnlyUnderTheLock : Prop :=
  ∀ s t : State, s.LockInv → step s = .next t → s.pending.head? ≠ some .reset →
    t.txlog = s.txlog
      ∨ ∃ e d rest c, s.pending = .enc e d :: rest ∧ s.lock = .held e ∧ t.txlog = s.txlog ++ [c]

/-- R58: RXQ is first-in first-out: a step leaves it alone, or is a decoder step that removes its first octet, or a
delivery that appends one; and nothing but the decoder takes from it (R257). -/
def Obligations.ReceiveQueueIsFifo : Prop :=
  ∀ s t : State, step s = .next t → s.pending.head? ≠ some .reset →
    t.rxq = s.rxq
      ∨ (s.pending.head? = some .dec ∧ ∃ c, s.rxq = c :: t.rxq)
      ∨ ∃ c, s.pending.head? = some (.link c) ∧ t.rxq = s.rxq ++ [c]

/-! ## Frames: what a family of instructions leaves alone -/

/-- R120 and the encoder rules: a step of engine `e` reads no RXQ, writes no OBUF, raises no fault, and touches no other
engine; no octet of any buffer changes; of engine `e`'s registers the length and the buffer stay. -/
def Obligations.EncoderStepFrame : Prop :=
  ∀ (i : Instr) (e : Nat) (s t : State), i.encEngine? = some e → exec i s = .next t →
    (∀ f, f ≠ e → t.encs[f]? = s.encs[f]?)
    ∧ (∀ E, s.encs[e]? = some E → ∃ E', t.encs[e]? = some E' ∧ E'.len = E.len ∧ ∀ a, E'.ibuf.read a = E.ibuf.read a)
    ∧ t.dec = s.dec ∧ (∀ a, t.obuf.read a = s.obuf.read a) ∧ t.rxq = s.rxq
    ∧ t.faults = s.faults ∧ t.refused = s.refused ∧ t.response = s.response ∧ t.accOut = s.accOut ∧ t.ctl = s.ctl

/-- A decoder step consumes exactly the first received octet, and touches no encoder, no lock, no TXLOG; OBUF changes at
most at index `n`, and never at or above `size` or `maxlen` (R151). -/
def Obligations.DecoderStepFrame : Prop :=
  ∀ (i : Instr) (s t : State), i.format = .decSel → exec i s = .next t →
    (∃ c, s.rxq = c :: t.rxq)
    ∧ t.encs = s.encs ∧ t.lock = s.lock ∧ t.txlog = s.txlog ∧ t.faults = s.faults ∧ t.refused = s.refused
    ∧ t.response = s.response ∧ t.accOut = s.accOut ∧ t.ctl = s.ctl ∧ t.dec.maxlen = s.dec.maxlen
    ∧ (∀ a, a ≠ s.dec.n.toNat → t.obuf.read a = s.obuf.read a)
    ∧ (∀ a, s.dec.size.toNat ≤ a ∨ s.dec.maxlen.toNat ≤ a → t.obuf.read a = s.obuf.read a)

/-- A host request touches no lock, no port, no octet of OBUF; only WRITE_IBUF changes an octet of IBUF, the one it
names; only ENCODE changes an engine's registers, only DECODE and CANCEL the decoder's. -/
def Obligations.HostRequestFrame : Prop :=
  ∀ (i : Instr) (s t : State), i.format = .hostReq → exec i s = .next t →
    t.lock = s.lock ∧ t.txlog = s.txlog ∧ t.rxq = s.rxq ∧ (∀ a, t.obuf.read a = s.obuf.read a)
    ∧ t.accOut = s.accOut ∧ t.ctl = s.ctl ∧ t.encs.length = s.encs.length
    ∧ (∀ (f : Nat) (E E' : Encoder) (a : Nat), s.encs[f]? = some E → t.encs[f]? = some E' → (∀ v, i ≠ .writeIbuf f a v) →
        E'.ibuf.read a = E.ibuf.read a)
    ∧ (∀ (f : Nat) (E E' : Encoder), s.encs[f]? = some E → t.encs[f]? = some E' → (∀ len, i ≠ .encode f len) →
        { E' with ibuf := E.ibuf } = E)
    ∧ ((∀ m, i ≠ .decode m) → i ≠ .cancel → t.dec = s.dec)

/-- A bare micro-operation changes at most the accumulator it names and the accumulator interface's output. -/
def Obligations.AccumulatorFrame : Prop :=
  ∀ (i : Instr) (s t : State), i.format = .accOp → exec i s = .next t →
    { t with dec := { t.dec with acc := s.dec.acc }, encs := s.encs, accOut := s.accOut } = s
    ∧ t.encs.length = s.encs.length
    ∧ ∀ (f : Nat) (E E' : Encoder), s.encs[f]? = some E → t.encs[f]? = some E' → { E' with acc := E.acc } = E

/-! ## The codec (00_scope.md R11, 41_encoder.md R132 to R135, 42_decoder.md R162 to R170, 43_checksum.md R192) -/

/-- R59, R132, R133, under every interleaving: while engine `e` holds the lock and is sending `frame(P)`, no choice of
the scheduler (another engine, a request, a delivery, the decoder) but the reset event can change what follows
`pre` in TXLOG into anything but a beginning of `frame(P)`; when the lock is given up, exactly `frame(P)` stands
there and the command has ended with OK or LOCK_RELEASE_FAILED. -/
def Obligations.FrameIsContiguousUnderEveryInterleaving : Prop :=
  ∀ (s t : State) (e : Nat) (P pre : List Byte), s.LockInv → s.micro = none → s.Sending e P pre →
    s.pending.head? ≠ some .reset → step s = .next t →
    t.Sending e P pre
      ∨ (t.txlog = pre ++ frame s.ctl P ∧ t.lock ≠ .held e
          ∧ ∃ E, t.encs[e]? = some E ∧ E.phase = .idle ∧ E.done = true ∧ (E.status = .ok ∨ E.status = .lockReleaseFailed))

/-- R132: an engine in ACQ with payload `P` written, a FREE lock and the answer OK, picked `7 + len + E` times, emits
exactly `frame(P)` and finishes as the release answers. -/
def Obligations.EncoderEmitsTheFrame : Prop :=
  ∀ (s : State) (e : Nat) (E : Encoder) (P : List Byte) (d : LockDraw),
    s.config.valid = true → s.micro = none → s.lock = .free → s.encs[e]? = some E →
    E.phase = .acq → P.length ≤ 128 → E.len = BitVec.ofNat 8 P.length → E.idx = 0#8 → E.acc = 0#8 →
    (∀ k, k < P.length → E.ibuf.read k = P[k]?) →
    ∃ t E', State.runEvents
        (List.replicate (6 + P.length + escapedCount s.ctl P) (.enc e LockDraw.allOk) ++ [.enc e d]) s = some t
      ∧ t.txlog = s.txlog ++ frame s.ctl P ∧ t.lock = Lock.afterRelease d.rel
      ∧ t.encs[e]? = some E' ∧ E'.phase = .idle ∧ E'.done = true
      ∧ (d.rel = .ok → E'.status = .ok) ∧ (d.rel ≠ .ok → E'.status = .lockReleaseFailed)

/-- R150 to R161 over a whole frame, with R169: whatever noise without START comes first, the decoder takes
`START, z, stuffed P, x, END`, answers OK exactly when `x` is the sum of `P` mod 128 (and the length of `P` is not
compared with SIZE `z`), and then holds the first `min(len P, z, maxlen)` bytes of `P`; the rest of RXQ is untouched. -/
def Obligations.DecoderVerdictOnAnyBody : Prop :=
  ∀ (s : State) (m z x : Byte) (noise P rest : List Byte),
    s.config.valid = true → s.micro = none → s.dec.phase = .awaitStart → s.dec.maxlen = m →
    s.ctl.startOctet ∉ noise → x ≠ s.ctl.endOctet → x ≠ s.ctl.escOctet →
    s.rxq = noise ++ [s.ctl.startOctet, z] ++ stuffAll s.ctl P ++ [x, s.ctl.endOctet] ++ rest →
    ∃ t, State.runEvents (List.replicate (noise.length + 2 + (stuffAll s.ctl P).length + 2) .dec) s = some t
      ∧ t.rxq = rest ∧ t.dec.phase = .idle ∧ t.dec.done = true
      ∧ (x = chk P → t.dec.status = .ok ∧ t.dec.rlen.toNat = min P.length (min z.toNat m.toNat)
          ∧ ∀ k, k < min P.length (min z.toNat m.toNat) → t.obuf.read k = P[k]?)
      ∧ (x ≠ chk P → t.dec.status = .checksumMismatch ∧ t.dec.rlen = 0#8)
      ∧ (∀ k, min z.toNat m.toNat ≤ k → t.obuf.read k = s.obuf.read k)
      ∧ t.encs = s.encs ∧ t.lock = s.lock ∧ t.txlog = s.txlog

/-- R164. Round trip: a decoder in AWAIT_START with room for the payload takes `frame(P)` and nothing more, finishes
with OK, and OBUF holds `P`. -/
def Obligations.DecoderRoundTrip : Prop :=
  ∀ (s : State) (m : Byte) (P rest : List Byte),
    s.config.valid = true → s.micro = none → s.dec.phase = .awaitStart → s.dec.maxlen = m →
    P.length ≤ 128 → P.length ≤ m.toNat →
    s.rxq = frame s.ctl P ++ rest →
    ∃ t, State.runEvents (List.replicate (frame s.ctl P).length .dec) s = some t
      ∧ t.rxq = rest ∧ t.dec.phase = .idle ∧ t.dec.status = .ok ∧ t.dec.rlen.toNat = P.length
      ∧ ∀ k, k < P.length → t.obuf.read k = P[k]?

/-- R165. Truncation: with `maxlen` below the frame's size the whole frame is taken and checked, the result is OK with
`rlen = maxlen`, and no octet at or above `maxlen` is written. -/
def Obligations.DecoderTruncates : Prop :=
  ∀ (s : State) (m : Byte) (P rest : List Byte),
    s.config.valid = true → s.micro = none → s.dec.phase = .awaitStart → s.dec.maxlen = m →
    P.length ≤ 128 → m.toNat < P.length →
    s.rxq = frame s.ctl P ++ rest →
    ∃ t, State.runEvents (List.replicate (frame s.ctl P).length .dec) s = some t
      ∧ t.rxq = rest ∧ t.dec.phase = .idle ∧ t.dec.status = .ok ∧ t.dec.rlen = m
      ∧ (∀ k, k < m.toNat → t.obuf.read k = P[k]?) ∧ (∀ k, m.toNat ≤ k → t.obuf.read k = s.obuf.read k)

/-- R263 with R164: from the reset state of a legal configuration, a host that starts the decoder, loads and encodes
`P`, with every lock answer OK and the transmitted octets looped back, gets `P` back, and the run has ended well (R262). -/
def Obligations.LoopbackRoundTripFromReset : Prop :=
  ∀ (p : Config) (e : Nat) (m : Byte) (P : List Byte),
    p.valid = true → e < p.nEnc → P.length ≤ 128 → P.length ≤ m.toNat →
    ∃ t, (State.resetWith p).runScript [.decode m, .send e P, .runEnc e, .loopback 0, .runDec] = some t
      ∧ t.txlog = frame p.octets P ∧ t.rxq = []
      ∧ t.dec.status = .ok ∧ t.dec.rlen.toNat = P.length ∧ (∀ k, k < P.length → t.obuf.read k = P[k]?)
      ∧ t.endedWell = true

/-- R134. Escaping correctness: in `frame(P)` END stands only at the first and the last position, and the octet after
an ESC is a substitute code. -/
def Obligations.EscapingIsCorrect : Prop :=
  ∀ (o : ControlOctets) (P : List Byte), o.valid = true → P.length ≤ 128 →
    ∃ mid, frame o P = [o.endOctet] ++ mid ++ [o.endOctet] ∧ o.endOctet ∉ mid
      ∧ (∀ k, (frame o P)[k]? = some o.escOctet →
          (frame o P)[k + 1]? = some o.escEnd ∨ (frame o P)[k + 1]? = some o.escEsc)

/-- R75. A frame is `5 + L + E` octets long: 5 for the empty payload, at least 5 and at most 261 for a payload the
encoder accepts, and 261 for 128 bytes that are all END or ESC. -/
def Obligations.FrameLength : Prop :=
  ∀ (o : ControlOctets) (P : List Byte),
    (frame o P).length = 5 + P.length + escapedCount o P
      ∧ (P = [] → (frame o P).length = 5)
      ∧ (P.length ≤ 128 → 5 ≤ (frame o P).length ∧ (frame o P).length ≤ 261)
      ∧ (P.length = 128 → (∀ c ∈ P, c = o.endOctet ∨ c = o.escOctet) → (frame o P).length = 261)

/-- R192, R11. The fold of the 8-bit sum of a payload, added up by ACC.ADD from a cleared accumulator, is `chk(P)`. -/
def Obligations.FoldOfSumIsChecksum : Prop :=
  ∀ P : List Byte, Acc.fold (P.foldl Acc.add Acc.clear) = chk P

/-- R170, the arithmetic of it: flipping one of bits 0 to 6 of one payload byte changes the checksum; flipping bit 7
does not, which is the false accept of C3. -/
def Obligations.ChecksumSeesLowBitFlipsOnly : Prop :=
  ∀ (A B : List Byte) (b : Byte) (j : Nat),
    (j < 7 → chk (A ++ [b ^^^ BitVec.twoPow 8 j] ++ B) ≠ chk (A ++ [b] ++ B))
      ∧ chk (A ++ [b ^^^ BitVec.twoPow 8 7] ++ B) = chk (A ++ [b] ++ B)
end

