-- ==== Sys2Proof/Laws/Decode.lean ====
section
/-! SUPPORT. The fields of the words the encoder builds, and the decoders on them. -/
namespace Sys2Proof

/-! ## Phase codes -/

@[simp] theorem EncPhase.ofCode?_code (ph : EncPhase) : EncPhase.ofCode? ph.code = some ph := by cases ph <;> rfl

@[simp] theorem DecPhase.ofCode?_code (ph : DecPhase) : DecPhase.ofCode? ph.code = some ph := by cases ph <;> rfl

/-! ## Fields of a concatenation -/

theorem extractLsb'_append_low {m n : Nat} (x : BitVec m) (y : BitVec n) : (x ++ y).extractLsb' 0 n = y := by
  ext k hk; simp [BitVec.getLsbD_append, hk]

theorem extractLsb'_append_high {m n : Nat} (x : BitVec m) (y : BitVec n) : (x ++ y).extractLsb' n m = x := by
  ext k hk; simp [BitVec.getLsbD_append, hk]

@[simp] theorem encWord_phase (ph : EncPhase) (b : Byte) : (encWord ph b).extractLsb' 8 4 = ph.code :=
  extractLsb'_append_high ..

@[simp] theorem encWord_byte (ph : EncPhase) (b : Byte) : (encWord ph b).extractLsb' 0 8 = b :=
  extractLsb'_append_low ..

@[simp] theorem decWord_phase (ph : DecPhase) (c : Byte) : (decWord ph c).extractLsb' 8 3 = ph.code :=
  extractLsb'_append_high ..

@[simp] theorem decWord_octet (ph : DecPhase) (c : Byte) : (decWord ph c).extractLsb' 0 8 = c :=
  extractLsb'_append_low ..

section
variable (op : BitVec 4) (f27 : Byte) (f19 : BitVec 4) (f15 f7 : Byte)

@[simp] theorem hostWord_op : (hostWord op f27 f19 f15 f7).extractLsb' 28 4 = op :=
  by ext k hk; simp [hostWord]; grind

@[simp] theorem hostWord_f27 : (hostWord op f27 f19 f15 f7).extractLsb' 20 8 = f27 :=
  by ext k hk; simp [hostWord]; grind

@[simp] theorem hostWord_f19 : (hostWord op f27 f19 f15 f7).extractLsb' 16 4 = f19 :=
  by ext k hk; simp [hostWord]; grind

@[simp] theorem hostWord_f15 : (hostWord op f27 f19 f15 f7).extractLsb' 8 8 = f15 :=
  by ext k hk; simp [hostWord]; grind

@[simp] theorem hostWord_f7 : (hostWord op f27 f19 f15 f7).extractLsb' 0 8 = f7 :=
  by ext k hk; simp [hostWord]; grind

/-- Every word is the word of its five fields. -/
theorem hostWord_fields (w : Word) :
    hostWord (w.extractLsb' 28 4) (w.extractLsb' 20 8) (w.extractLsb' 16 4) (w.extractLsb' 8 8) (w.extractLsb' 0 8) = w := by
  ext k hk; simp [hostWord]; grind

theorem hostWord_inj {op op' : BitVec 4} {a a' c c' d d' : Byte} {b b' : BitVec 4} :
    hostWord op a b c d = hostWord op' a' b' c' d' ↔ op = op' ∧ a = a' ∧ b = b' ∧ c = c' ∧ d = d' := by
  constructor
  · intro h
    exact ⟨by simpa using congrArg (BitVec.extractLsb' 28 4) h, by simpa using congrArg (BitVec.extractLsb' 20 8) h,
      by simpa using congrArg (BitVec.extractLsb' 16 4) h, by simpa using congrArg (BitVec.extractLsb' 8 8) h,
      by simpa using congrArg (BitVec.extractLsb' 0 8) h⟩
  · rintro ⟨rfl, rfl, rfl, rfl, rfl⟩; rfl

/-- A mask applies field by field. -/
theorem hostWord_and (op' : BitVec 4) (a : Byte) (b : BitVec 4) (c d : Byte) :
    hostWord op f27 f19 f15 f7 &&& hostWord op' a b c d
      = hostWord (op &&& op') (f27 &&& a) (f19 &&& b) (f15 &&& c) (f7 &&& d) := by
  ext k hk; simp [hostWord]; grind

end

/-! ## The decoders on built words -/

theorem decodeEnc_encWord (p : Config) {e : Nat} (he : e < p.nEnc) (ph : EncPhase) (b : Byte) (d : LockDraw) :
    decodeEnc p e (encWord ph b) d = decodeEncPhase p e b d ph := by simp [decodeEnc, he]

/-! ## What a decoder can give -/

theorem decodeHost_format {p : Config} {w : Word} {i : Instr} (h : decodeHost p w = .ok i) : i.format = .hostReq := by
  simp only [decodeHost, ifReservedZero, forEngine] at h
  grind [Instr.format]

theorem decodeEnc_engine {p : Config} {e : Nat} {w : BitVec 12} {d : LockDraw} {i : Instr}
    (h : decodeEnc p e w d = .ok i) : i.encEngine? = some e := by
  unfold decodeEnc at h
  split at h
  · split at h
    · cases h
    · next ph _ =>
      cases ph <;> simp only [decodeEncPhase, Except.ok.injEq, reduceCtorEq] at h <;> grind [Instr.encEngine?]
  · cases h

theorem decodeDec_format {p : Config} {w : BitVec 11} {i : Instr} (h : decodeDec p w = .ok i) :
    i.format = .decSel := by
  unfold decodeDec at h
  split at h
  · cases h
  · next ph _ =>
    cases ph <;> simp only [decodeDecPhase, Except.ok.injEq, reduceCtorEq] at h <;> grind [Instr.format]

theorem decodeAcc_format {p : Config} {a : AccInst} {op : BitVec 2} {d : Byte} {i : Instr}
    (h : decodeAcc p a op d = .ok i) : i.format = .accOp := by
  simp only [decodeAcc] at h
  grind [Instr.format]

theorem decodeDec_decWord (p : Config) (ph : DecPhase) (c : Byte) :
    decodeDec p (decWord ph c) = decodeDecPhase p c ph := by simp [decodeDec]

end Sys2Proof
end

