-- ==== Sys2Proof/Laws/Memory.lean ====
section
/-! SUPPORT. The octet spaces: read after write, canonical form, bounds. -/
namespace Sys2Proof.Machine

@[simp] theorem Memory.read_nil (i : Nat) : Memory.read [] i = none := rfl

theorem Memory.read_cons (a : Nat) (w : Byte) (m : Memory) (i : Nat) :
    Memory.read ((a, w) :: m) i = if a = i then some w else Memory.read m i := rfl

theorem Memory.read_write (m : Memory) (i j : Nat) (v : Byte) :
    Memory.read (Memory.write m i v) j = if i = j then some v else Memory.read m j := by
  induction m with
  | nil => rfl
  | cons c m ih =>
    obtain ⟨a, w⟩ := c
    simp only [Memory.write]
    split
    · simp [Memory.read_cons]
    · split
      · subst_vars; simp only [Memory.read_cons]; split <;> simp_all
      · simp only [Memory.read_cons, ih]; grind

@[simp] theorem Memory.read_write_same (m : Memory) (i : Nat) (v : Byte) :
    Memory.read (Memory.write m i v) i = some v := by simp [Memory.read_write]

theorem Memory.read_write_of_ne (m : Memory) {i j : Nat} (v : Byte) (h : i ≠ j) :
    Memory.read (Memory.write m i v) j = Memory.read m j := by simp [Memory.read_write, h]

theorem Memory.wfFrom_cons (cap lo a : Nat) (w : Byte) (m : Memory) :
    Memory.wfFrom cap lo ((a, w) :: m) = true ↔ lo ≤ a ∧ a < cap ∧ Memory.wfFrom cap (a + 1) m = true := by
  simp [Memory.wfFrom, and_assoc]

theorem Memory.wfFrom_write {cap lo i : Nat} {m : Memory} (v : Byte)
    (h : Memory.wfFrom cap lo m = true) (hlo : lo ≤ i) (hi : i < cap) :
    Memory.wfFrom cap lo (Memory.write m i v) = true := by
  induction m generalizing lo with
  | nil => simp [Memory.write, Memory.wfFrom, hlo, hi]
  | cons c m ih =>
    obtain ⟨a, w⟩ := c
    obtain ⟨h1, h2, h3⟩ := (Memory.wfFrom_cons ..).1 h
    simp only [Memory.write]
    split
    · simp only [Memory.wfFrom_cons]; exact ⟨hlo, hi, by omega, h2, h3⟩
    · split
      · subst_vars; simp only [Memory.wfFrom_cons]; exact ⟨h1, h2, h3⟩
      · simp only [Memory.wfFrom_cons]; exact ⟨h1, h2, ih h3 (by omega)⟩

/-- A write within the space keeps its canonical form. -/
theorem Memory.wf_write {cap i : Nat} {m : Memory} (v : Byte) (h : Memory.wf cap m = true) (hi : i < cap) :
    Memory.wf cap (Memory.write m i v) = true :=
  Memory.wfFrom_write v h (Nat.zero_le i) hi

@[simp] theorem Memory.wf_nil (cap : Nat) : Memory.wf cap [] = true := rfl

theorem Memory.read_eq_none_of_wfFrom {cap lo i : Nat} {m : Memory} (h : Memory.wfFrom cap lo m = true)
    (hi : i < lo ∨ cap ≤ i) : Memory.read m i = none := by
  induction m generalizing lo with
  | nil => rfl
  | cons c m ih =>
    obtain ⟨a, w⟩ := c
    obtain ⟨h1, h2, h3⟩ := (Memory.wfFrom_cons ..).1 h
    rw [Memory.read_cons, if_neg (by omega)]
    exact ih h3 (by omega)

/-- Two octet spaces in canonical form that read the same everywhere are the same data. -/
theorem Memory.ext_of_wfFrom {cap lo : Nat} {m m' : Memory} (h : Memory.wfFrom cap lo m = true)
    (h' : Memory.wfFrom cap lo m' = true) (hr : ∀ i, Memory.read m i = Memory.read m' i) : m = m' := by
  induction m generalizing lo m' with
  | nil =>
    cases m' with
    | nil => rfl
    | cons c m' => obtain ⟨a, w⟩ := c; have := hr a; simp [Memory.read_cons] at this
  | cons c m ih =>
    obtain ⟨a, w⟩ := c
    obtain ⟨h1, _, h3⟩ := (Memory.wfFrom_cons ..).1 h
    cases m' with
    | nil => have := hr a; simp [Memory.read_cons] at this
    | cons c' m' =>
      obtain ⟨a', w'⟩ := c'
      obtain ⟨h1', _, h3'⟩ := (Memory.wfFrom_cons ..).1 h'
      have hne : ∀ i, i ≤ a → Memory.read m i = none := fun i hi => Memory.read_eq_none_of_wfFrom h3 (by omega)
      have hne' : ∀ i, i ≤ a' → Memory.read m' i = none := fun i hi => Memory.read_eq_none_of_wfFrom h3' (by omega)
      have ha : a = a' := by
        rcases Nat.lt_trichotomy a a' with hl | he | hg
        · have := hr a; simp [Memory.read_cons, hne' a (by omega), Nat.ne_of_gt hl] at this
        · exact he
        · have := hr a'; simp [Memory.read_cons, hne a' (by omega), Nat.ne_of_gt hg] at this
      subst ha
      have hw : w = w' := by have := hr a; simpa [Memory.read_cons] using this
      subst hw
      congr 1
      refine ih h3 h3' fun i => ?_
      by_cases hi : i ≤ a
      · rw [hne i hi, hne' i hi]
      · have := hr i; rwa [Memory.read_cons, Memory.read_cons, if_neg (by omega), if_neg (by omega)] at this

end Sys2Proof.Machine
end

