-- ==== Sys2Proof/Laws/State.lean ====
section
/-! SUPPORT. One lemma per field per state update, so that no proof unfolds a record update. -/
namespace Sys2Proof.Machine

section
variable (s : State)

/-! ### setEnc -/

@[simp] theorem State.setEnc_ctl (e : Nat) (E : Encoder) : (s.setEnc e E).ctl = s.ctl := rfl
@[simp] theorem State.setEnc_encs (e : Nat) (E : Encoder) : (s.setEnc e E).encs = s.encs.set e E := rfl
@[simp] theorem State.setEnc_dec (e : Nat) (E : Encoder) : (s.setEnc e E).dec = s.dec := rfl
@[simp] theorem State.setEnc_obuf (e : Nat) (E : Encoder) : (s.setEnc e E).obuf = s.obuf := rfl
@[simp] theorem State.setEnc_lock (e : Nat) (E : Encoder) : (s.setEnc e E).lock = s.lock := rfl
@[simp] theorem State.setEnc_txlog (e : Nat) (E : Encoder) : (s.setEnc e E).txlog = s.txlog := rfl
@[simp] theorem State.setEnc_rxq (e : Nat) (E : Encoder) : (s.setEnc e E).rxq = s.rxq := rfl
@[simp] theorem State.setEnc_faults (e : Nat) (E : Encoder) : (s.setEnc e E).faults = s.faults := rfl
@[simp] theorem State.setEnc_refused (e : Nat) (E : Encoder) : (s.setEnc e E).refused = s.refused := rfl
@[simp] theorem State.setEnc_response (e : Nat) (E : Encoder) : (s.setEnc e E).response = s.response := rfl
@[simp] theorem State.setEnc_accOut (e : Nat) (E : Encoder) : (s.setEnc e E).accOut = s.accOut := rfl
@[simp] theorem State.setEnc_micro (e : Nat) (E : Encoder) : (s.setEnc e E).micro = s.micro := rfl
@[simp] theorem State.setEnc_draws (e : Nat) (E : Encoder) : (s.setEnc e E).draws = s.draws := rfl
@[simp] theorem State.setEnc_pending (e : Nat) (E : Encoder) : (s.setEnc e E).pending = s.pending := rfl

/-! ### setDec -/

@[simp] theorem State.setDec_ctl (D : Decoder) : (s.setDec D).ctl = s.ctl := rfl
@[simp] theorem State.setDec_encs (D : Decoder) : (s.setDec D).encs = s.encs := rfl
@[simp] theorem State.setDec_dec (D : Decoder) : (s.setDec D).dec = D := rfl
@[simp] theorem State.setDec_obuf (D : Decoder) : (s.setDec D).obuf = s.obuf := rfl
@[simp] theorem State.setDec_lock (D : Decoder) : (s.setDec D).lock = s.lock := rfl
@[simp] theorem State.setDec_txlog (D : Decoder) : (s.setDec D).txlog = s.txlog := rfl
@[simp] theorem State.setDec_rxq (D : Decoder) : (s.setDec D).rxq = s.rxq := rfl
@[simp] theorem State.setDec_faults (D : Decoder) : (s.setDec D).faults = s.faults := rfl
@[simp] theorem State.setDec_refused (D : Decoder) : (s.setDec D).refused = s.refused := rfl
@[simp] theorem State.setDec_response (D : Decoder) : (s.setDec D).response = s.response := rfl
@[simp] theorem State.setDec_accOut (D : Decoder) : (s.setDec D).accOut = s.accOut := rfl
@[simp] theorem State.setDec_micro (D : Decoder) : (s.setDec D).micro = s.micro := rfl
@[simp] theorem State.setDec_draws (D : Decoder) : (s.setDec D).draws = s.draws := rfl
@[simp] theorem State.setDec_pending (D : Decoder) : (s.setDec D).pending = s.pending := rfl

/-! ### emit -/

@[simp] theorem State.emit_ctl (c : Byte) : (s.emit c).ctl = s.ctl := rfl
@[simp] theorem State.emit_encs (c : Byte) : (s.emit c).encs = s.encs := rfl
@[simp] theorem State.emit_dec (c : Byte) : (s.emit c).dec = s.dec := rfl
@[simp] theorem State.emit_obuf (c : Byte) : (s.emit c).obuf = s.obuf := rfl
@[simp] theorem State.emit_lock (c : Byte) : (s.emit c).lock = s.lock := rfl
@[simp] theorem State.emit_txlog (c : Byte) : (s.emit c).txlog = s.txlog ++ [c] := rfl
@[simp] theorem State.emit_rxq (c : Byte) : (s.emit c).rxq = s.rxq := rfl
@[simp] theorem State.emit_faults (c : Byte) : (s.emit c).faults = s.faults := rfl
@[simp] theorem State.emit_refused (c : Byte) : (s.emit c).refused = s.refused := rfl
@[simp] theorem State.emit_response (c : Byte) : (s.emit c).response = s.response := rfl
@[simp] theorem State.emit_accOut (c : Byte) : (s.emit c).accOut = s.accOut := rfl
@[simp] theorem State.emit_micro (c : Byte) : (s.emit c).micro = s.micro := rfl
@[simp] theorem State.emit_draws (c : Byte) : (s.emit c).draws = s.draws := rfl
@[simp] theorem State.emit_pending (c : Byte) : (s.emit c).pending = s.pending := rfl

/-! ### deliver -/

@[simp] theorem State.deliver_ctl (c : Byte) : (s.deliver c).ctl = s.ctl := rfl
@[simp] theorem State.deliver_encs (c : Byte) : (s.deliver c).encs = s.encs := rfl
@[simp] theorem State.deliver_dec (c : Byte) : (s.deliver c).dec = s.dec := rfl
@[simp] theorem State.deliver_obuf (c : Byte) : (s.deliver c).obuf = s.obuf := rfl
@[simp] theorem State.deliver_lock (c : Byte) : (s.deliver c).lock = s.lock := rfl
@[simp] theorem State.deliver_txlog (c : Byte) : (s.deliver c).txlog = s.txlog := rfl
@[simp] theorem State.deliver_rxq (c : Byte) : (s.deliver c).rxq = s.rxq ++ [c] := rfl
@[simp] theorem State.deliver_faults (c : Byte) : (s.deliver c).faults = s.faults := rfl
@[simp] theorem State.deliver_refused (c : Byte) : (s.deliver c).refused = s.refused := rfl
@[simp] theorem State.deliver_response (c : Byte) : (s.deliver c).response = s.response := rfl
@[simp] theorem State.deliver_accOut (c : Byte) : (s.deliver c).accOut = s.accOut := rfl
@[simp] theorem State.deliver_micro (c : Byte) : (s.deliver c).micro = s.micro := rfl
@[simp] theorem State.deliver_draws (c : Byte) : (s.deliver c).draws = s.draws := rfl
@[simp] theorem State.deliver_pending (c : Byte) : (s.deliver c).pending = s.pending := rfl

/-! ### respond -/

@[simp] theorem State.respond_ctl (w : Word) : (s.respond w).ctl = s.ctl := rfl
@[simp] theorem State.respond_encs (w : Word) : (s.respond w).encs = s.encs := rfl
@[simp] theorem State.respond_dec (w : Word) : (s.respond w).dec = s.dec := rfl
@[simp] theorem State.respond_obuf (w : Word) : (s.respond w).obuf = s.obuf := rfl
@[simp] theorem State.respond_lock (w : Word) : (s.respond w).lock = s.lock := rfl
@[simp] theorem State.respond_txlog (w : Word) : (s.respond w).txlog = s.txlog := rfl
@[simp] theorem State.respond_rxq (w : Word) : (s.respond w).rxq = s.rxq := rfl
@[simp] theorem State.respond_faults (w : Word) : (s.respond w).faults = s.faults := rfl
@[simp] theorem State.respond_refused (w : Word) : (s.respond w).refused = s.refused := rfl
@[simp] theorem State.respond_response (w : Word) : (s.respond w).response = some w := rfl
@[simp] theorem State.respond_accOut (w : Word) : (s.respond w).accOut = s.accOut := rfl
@[simp] theorem State.respond_micro (w : Word) : (s.respond w).micro = s.micro := rfl
@[simp] theorem State.respond_draws (w : Word) : (s.respond w).draws = s.draws := rfl
@[simp] theorem State.respond_pending (w : Word) : (s.respond w).pending = s.pending := rfl

/-! ### raiseFault -/

@[simp] theorem State.raiseFault_ctl (r : DutyFault) : (s.raiseFault r).ctl = s.ctl := rfl
@[simp] theorem State.raiseFault_encs (r : DutyFault) : (s.raiseFault r).encs = s.encs := rfl
@[simp] theorem State.raiseFault_dec (r : DutyFault) : (s.raiseFault r).dec = s.dec := rfl
@[simp] theorem State.raiseFault_obuf (r : DutyFault) : (s.raiseFault r).obuf = s.obuf := rfl
@[simp] theorem State.raiseFault_lock (r : DutyFault) : (s.raiseFault r).lock = s.lock := rfl
@[simp] theorem State.raiseFault_txlog (r : DutyFault) : (s.raiseFault r).txlog = s.txlog := rfl
@[simp] theorem State.raiseFault_rxq (r : DutyFault) : (s.raiseFault r).rxq = s.rxq := rfl
@[simp] theorem State.raiseFault_faults (r : DutyFault) : (s.raiseFault r).faults = s.faults.insert r := rfl
@[simp] theorem State.raiseFault_refused (r : DutyFault) : (s.raiseFault r).refused = s.refused := rfl
@[simp] theorem State.raiseFault_response (r : DutyFault) : (s.raiseFault r).response = s.response := rfl
@[simp] theorem State.raiseFault_accOut (r : DutyFault) : (s.raiseFault r).accOut = s.accOut := rfl
@[simp] theorem State.raiseFault_micro (r : DutyFault) : (s.raiseFault r).micro = s.micro := rfl
@[simp] theorem State.raiseFault_draws (r : DutyFault) : (s.raiseFault r).draws = s.draws := rfl
@[simp] theorem State.raiseFault_pending (r : DutyFault) : (s.raiseFault r).pending = s.pending := rfl

/-! ### refuse -/

@[simp] theorem State.refuse_ctl : (s.refuse).ctl = s.ctl := rfl
@[simp] theorem State.refuse_encs : (s.refuse).encs = s.encs := rfl
@[simp] theorem State.refuse_dec : (s.refuse).dec = s.dec := rfl
@[simp] theorem State.refuse_obuf : (s.refuse).obuf = s.obuf := rfl
@[simp] theorem State.refuse_lock : (s.refuse).lock = s.lock := rfl
@[simp] theorem State.refuse_txlog : (s.refuse).txlog = s.txlog := rfl
@[simp] theorem State.refuse_rxq : (s.refuse).rxq = s.rxq := rfl
@[simp] theorem State.refuse_faults : (s.refuse).faults = s.faults := rfl
@[simp] theorem State.refuse_refused : (s.refuse).refused = true := rfl
@[simp] theorem State.refuse_response : (s.refuse).response = s.response := rfl
@[simp] theorem State.refuse_accOut : (s.refuse).accOut = s.accOut := rfl
@[simp] theorem State.refuse_micro : (s.refuse).micro = s.micro := rfl
@[simp] theorem State.refuse_draws : (s.refuse).draws = s.draws := rfl
@[simp] theorem State.refuse_pending : (s.refuse).pending = s.pending := rfl

/-! ### decTo -/

@[simp] theorem State.decTo_ctl (ph : DecPhase) : (s.decTo ph).ctl = s.ctl := rfl
@[simp] theorem State.decTo_encs (ph : DecPhase) : (s.decTo ph).encs = s.encs := rfl
@[simp] theorem State.decTo_dec (ph : DecPhase) : (s.decTo ph).dec = { s.dec with phase := ph } := rfl
@[simp] theorem State.decTo_obuf (ph : DecPhase) : (s.decTo ph).obuf = s.obuf := rfl
@[simp] theorem State.decTo_lock (ph : DecPhase) : (s.decTo ph).lock = s.lock := rfl
@[simp] theorem State.decTo_txlog (ph : DecPhase) : (s.decTo ph).txlog = s.txlog := rfl
@[simp] theorem State.decTo_rxq (ph : DecPhase) : (s.decTo ph).rxq = s.rxq := rfl
@[simp] theorem State.decTo_faults (ph : DecPhase) : (s.decTo ph).faults = s.faults := rfl
@[simp] theorem State.decTo_refused (ph : DecPhase) : (s.decTo ph).refused = s.refused := rfl
@[simp] theorem State.decTo_response (ph : DecPhase) : (s.decTo ph).response = s.response := rfl
@[simp] theorem State.decTo_accOut (ph : DecPhase) : (s.decTo ph).accOut = s.accOut := rfl
@[simp] theorem State.decTo_micro (ph : DecPhase) : (s.decTo ph).micro = s.micro := rfl
@[simp] theorem State.decTo_draws (ph : DecPhase) : (s.decTo ph).draws = s.draws := rfl
@[simp] theorem State.decTo_pending (ph : DecPhase) : (s.decTo ph).pending = s.pending := rfl

/-! ### finishDec -/

@[simp] theorem State.finishDec_ctl (k : Status) : (s.finishDec k).ctl = s.ctl := rfl
@[simp] theorem State.finishDec_encs (k : Status) : (s.finishDec k).encs = s.encs := rfl
@[simp] theorem State.finishDec_dec (k : Status) : (s.finishDec k).dec = s.dec.finish k := rfl
@[simp] theorem State.finishDec_obuf (k : Status) : (s.finishDec k).obuf = s.obuf := rfl
@[simp] theorem State.finishDec_lock (k : Status) : (s.finishDec k).lock = s.lock := rfl
@[simp] theorem State.finishDec_txlog (k : Status) : (s.finishDec k).txlog = s.txlog := rfl
@[simp] theorem State.finishDec_rxq (k : Status) : (s.finishDec k).rxq = s.rxq := rfl
@[simp] theorem State.finishDec_faults (k : Status) : (s.finishDec k).faults = s.faults := rfl
@[simp] theorem State.finishDec_refused (k : Status) : (s.finishDec k).refused = s.refused := rfl
@[simp] theorem State.finishDec_response (k : Status) : (s.finishDec k).response = s.response := rfl
@[simp] theorem State.finishDec_accOut (k : Status) : (s.finishDec k).accOut = s.accOut := rfl
@[simp] theorem State.finishDec_micro (k : Status) : (s.finishDec k).micro = s.micro := rfl
@[simp] theorem State.finishDec_draws (k : Status) : (s.finishDec k).draws = s.draws := rfl
@[simp] theorem State.finishDec_pending (k : Status) : (s.finishDec k).pending = s.pending := rfl

/-! ### applyReset -/

@[simp] theorem State.applyReset_ctl : (s.applyReset).ctl = s.ctl := rfl
@[simp] theorem State.applyReset_encs : (s.applyReset).encs = List.replicate s.encs.length Encoder.reset := rfl
@[simp] theorem State.applyReset_dec : (s.applyReset).dec = Decoder.reset := rfl
@[simp] theorem State.applyReset_obuf : (s.applyReset).obuf = [] := rfl
@[simp] theorem State.applyReset_lock : (s.applyReset).lock = .free := rfl
@[simp] theorem State.applyReset_txlog : (s.applyReset).txlog = [] := rfl
@[simp] theorem State.applyReset_rxq : (s.applyReset).rxq = [] := rfl
@[simp] theorem State.applyReset_faults : (s.applyReset).faults = FaultSet.empty := rfl
@[simp] theorem State.applyReset_refused : (s.applyReset).refused = false := rfl
@[simp] theorem State.applyReset_response : (s.applyReset).response = none := rfl
@[simp] theorem State.applyReset_accOut : (s.applyReset).accOut = .none := rfl
@[simp] theorem State.applyReset_micro : (s.applyReset).micro = none := rfl
@[simp] theorem State.applyReset_draws : (s.applyReset).draws = s.draws := rfl
@[simp] theorem State.applyReset_pending : (s.applyReset).pending = s.pending := rfl

/-! ### drawByte -/

@[simp] theorem State.drawByte_fst : s.drawByte.1 = Config.freeByte s.draws := rfl

@[simp] theorem State.drawByte_snd : s.drawByte.2 = { s with draws := s.draws + 1 } := rfl

/-! ### Views -/

@[simp] theorem State.config_octets : s.config.octets = s.ctl := rfl

@[simp] theorem State.config_nEnc : s.config.nEnc = s.encs.length := rfl

theorem State.nEnc_def : s.nEnc = s.encs.length := rfl

/-! ### Ending a command -/

variable (E : Encoder) (D : Decoder) (k : Status)

@[simp] theorem Encoder.finish_phase : (E.finish k).phase = .idle := rfl
@[simp] theorem Encoder.finish_len : (E.finish k).len = E.len := rfl
@[simp] theorem Encoder.finish_idx : (E.finish k).idx = E.idx := rfl
@[simp] theorem Encoder.finish_sub : (E.finish k).sub = E.sub := rfl
@[simp] theorem Encoder.finish_acc : (E.finish k).acc = E.acc := rfl
@[simp] theorem Encoder.finish_status : (E.finish k).status = k := rfl
@[simp] theorem Encoder.finish_done : (E.finish k).done = true := rfl
@[simp] theorem Encoder.finish_ibuf : (E.finish k).ibuf = E.ibuf := rfl

@[simp] theorem Decoder.finish_phase : (D.finish k).phase = .idle := rfl
@[simp] theorem Decoder.finish_size : (D.finish k).size = D.size := rfl
@[simp] theorem Decoder.finish_maxlen : (D.finish k).maxlen = D.maxlen := rfl
@[simp] theorem Decoder.finish_acc : (D.finish k).acc = D.acc := rfl
@[simp] theorem Decoder.finish_n : (D.finish k).n = D.n := rfl
@[simp] theorem Decoder.finish_pend : (D.finish k).pend = D.pend := rfl
@[simp] theorem Decoder.finish_prev : (D.finish k).prev = D.prev := rfl
@[simp] theorem Decoder.finish_status : (D.finish k).status = k := rfl
@[simp] theorem Decoder.finish_done : (D.finish k).done = true := rfl
theorem Decoder.finish_rlen : (D.finish k).rlen = if k = .ok then D.n else 0#8 := rfl

@[simp] theorem Encoder.takeByte_phase (b : Byte) : (E.takeByte b).phase = E.phase := rfl
@[simp] theorem Encoder.takeByte_len (b : Byte) : (E.takeByte b).len = E.len := rfl
@[simp] theorem Encoder.takeByte_idx (b : Byte) : (E.takeByte b).idx = E.idx + 1#8 := rfl
@[simp] theorem Encoder.takeByte_sub (b : Byte) : (E.takeByte b).sub = E.sub := rfl
@[simp] theorem Encoder.takeByte_acc (b : Byte) : (E.takeByte b).acc = E.acc + b := rfl
@[simp] theorem Encoder.takeByte_status (b : Byte) : (E.takeByte b).status = E.status := rfl
@[simp] theorem Encoder.takeByte_done (b : Byte) : (E.takeByte b).done = E.done := rfl
@[simp] theorem Encoder.takeByte_ibuf (b : Byte) : (E.takeByte b).ibuf = E.ibuf := rfl

/-! ### The fault set -/

theorem FaultSet.mem_insert_self (f : FaultSet) (r : DutyFault) : (f.insert r).mem r = true := by
  cases r <;> rfl

theorem FaultSet.mem_insert_of_mem (f : FaultSet) (r q : DutyFault) (h : f.mem q = true) : (f.insert r).mem q = true := by
  cases r <;> cases q <;> simp_all [FaultSet.insert, FaultSet.mem]

/-! ### Commit: what it leaves alone -/


@[simp] theorem State.commitCandidate_ctl : s.commitCandidate.ctl = s.ctl := by
  unfold State.commitCandidate; split <;> rfl

@[simp] theorem State.commitCandidate_encs : s.commitCandidate.encs = s.encs := by
  unfold State.commitCandidate; split <;> rfl

@[simp] theorem State.commitCandidate_lock : s.commitCandidate.lock = s.lock := by
  unfold State.commitCandidate; split <;> rfl

@[simp] theorem State.commitCandidate_txlog : s.commitCandidate.txlog = s.txlog := by
  unfold State.commitCandidate; split <;> rfl

@[simp] theorem State.commitCandidate_rxq : s.commitCandidate.rxq = s.rxq := by
  unfold State.commitCandidate; split <;> rfl

@[simp] theorem State.commitCandidate_faults : s.commitCandidate.faults = s.faults := by
  unfold State.commitCandidate; split <;> rfl

@[simp] theorem State.commitCandidate_refused : s.commitCandidate.refused = s.refused := by
  unfold State.commitCandidate; split <;> rfl

@[simp] theorem State.commitCandidate_response : s.commitCandidate.response = s.response := by
  unfold State.commitCandidate; split <;> rfl

@[simp] theorem State.commitCandidate_accOut : s.commitCandidate.accOut = s.accOut := by
  unfold State.commitCandidate; split <;> rfl

@[simp] theorem State.commitCandidate_micro : s.commitCandidate.micro = s.micro := by
  unfold State.commitCandidate; split <;> rfl

@[simp] theorem State.commitCandidate_draws : s.commitCandidate.draws = s.draws := by
  unfold State.commitCandidate; split <;> rfl

@[simp] theorem State.commitCandidate_pending : s.commitCandidate.pending = s.pending := by
  unfold State.commitCandidate; split <;> rfl

@[simp] theorem State.commit_ctl (d : Byte) : (s.commit d).ctl = s.ctl := by
  unfold State.commit; cases s.dec.pend <;> simp

@[simp] theorem State.commit_encs (d : Byte) : (s.commit d).encs = s.encs := by
  unfold State.commit; cases s.dec.pend <;> simp

@[simp] theorem State.commit_lock (d : Byte) : (s.commit d).lock = s.lock := by
  unfold State.commit; cases s.dec.pend <;> simp

@[simp] theorem State.commit_txlog (d : Byte) : (s.commit d).txlog = s.txlog := by
  unfold State.commit; cases s.dec.pend <;> simp

@[simp] theorem State.commit_rxq (d : Byte) : (s.commit d).rxq = s.rxq := by
  unfold State.commit; cases s.dec.pend <;> simp

@[simp] theorem State.commit_faults (d : Byte) : (s.commit d).faults = s.faults := by
  unfold State.commit; cases s.dec.pend <;> simp

@[simp] theorem State.commit_refused (d : Byte) : (s.commit d).refused = s.refused := by
  unfold State.commit; cases s.dec.pend <;> simp

@[simp] theorem State.commit_response (d : Byte) : (s.commit d).response = s.response := by
  unfold State.commit; cases s.dec.pend <;> simp

@[simp] theorem State.commit_accOut (d : Byte) : (s.commit d).accOut = s.accOut := by
  unfold State.commit; cases s.dec.pend <;> simp

@[simp] theorem State.commit_micro (d : Byte) : (s.commit d).micro = s.micro := by
  unfold State.commit; cases s.dec.pend <;> simp

@[simp] theorem State.commit_draws (d : Byte) : (s.commit d).draws = s.draws := by
  unfold State.commit; cases s.dec.pend <;> simp

@[simp] theorem State.commit_pending (d : Byte) : (s.commit d).pending = s.pending := by
  unfold State.commit; cases s.dec.pend <;> simp

end

end Sys2Proof.Machine
end

