-- ==== Sys2Proof/Laws/Ops.lean ====
section
/-! SUPPORT. One lemma per shared operation, saying once everything it can do. -/
namespace Sys2Proof.Machine

variable {s t : State} {e : Nat} {E : Encoder}

/-! ## Selecting a step -/

theorem State.atPhase_eq {ph : EncPhase} {k : Encoder → Outcome} (hE : s.encs[e]? = some E) (hp : E.phase = ph) :
    s.atPhase e ph k = k E := by simp [State.atPhase, hE, hp]

theorem State.atPhase_next {ph : EncPhase} {k : Encoder → Outcome} (h : s.atPhase e ph k = .next t) :
    ∃ E, s.encs[e]? = some E ∧ E.phase = ph ∧ k E = .next t := by
  unfold State.atPhase at h
  split at h
  · cases h
  · next E hE =>
    split at h
    · next hp => exact ⟨E, hE, hp, h⟩
    · cases h

theorem State.atByte_eq {b : Byte} {k : Encoder → Outcome} (hE : s.encs[e]? = some E) (hp : E.phase = .body)
    (hb : E.holds b = true) : s.atByte e b k = k E := by simp [State.atByte, State.atPhase_eq hE hp, hb]

theorem State.atByte_next {b : Byte} {k : Encoder → Outcome} (h : s.atByte e b k = .next t) :
    ∃ E, s.encs[e]? = some E ∧ E.phase = .body ∧ E.holds b = true ∧ k E = .next t := by
  obtain ⟨E, hE, hp, hk⟩ := State.atPhase_next h
  split at hk
  · next hb => exact ⟨E, hE, hp, hb, hk⟩
  · cases hk

/-- A byte can be read at `idx` exactly if it was written there, or nothing was. -/
theorem Encoder.holds_iff (b : Byte) :
    E.holds b = true ↔ E.ibuf.read E.idx.toNat = none ∨ E.ibuf.read E.idx.toNat = some b := by
  unfold Encoder.holds
  split <;> simp_all

/-- The payload byte an engine presents is one its buffer can hold; presenting it changes only the count of draws. -/
theorem State.payloadByte_cases (E : Encoder) :
    E.holds (s.payloadByte E).1 = true ∧ ∃ k, (s.payloadByte E).2 = { s with draws := k } := by
  unfold State.payloadByte Encoder.holds
  split
  · exact ⟨rfl, _, rfl⟩
  · exact ⟨by simp, s.draws, rfl⟩

theorem State.onOctet_eq {ph : DecPhase} {c : Byte} {rest : List Byte} {k : State → Outcome} (hp : s.dec.phase = ph)
    (hq : s.rxq = c :: rest) : s.onOctet ph c k = k { s with rxq := rest } := by
  simp [State.onOctet, State.take?, hp, hq]

theorem State.onOctet_next {ph : DecPhase} {c : Byte} {k : State → Outcome} (h : s.onOctet ph c k = .next t) :
    s.dec.phase = ph ∧ ∃ rest, s.rxq = c :: rest ∧ k { s with rxq := rest } = .next t := by
  unfold State.onOctet State.take? at h
  split at h
  · next hp =>
    refine ⟨hp, ?_⟩
    split at h
    · cases h
    · next x s' hx =>
      split at hx
      · cases hx
      · next y rest hq =>
        simp only [Option.some.injEq, Prod.mk.injEq] at hx
        obtain ⟨rfl, rfl⟩ := hx
        split at h
        · next hc => exact ⟨rest, by rw [hq, hc], h⟩
        · cases h
  · cases h

theorem State.forEnc_eq {k : Encoder → Outcome} (hE : s.encs[e]? = some E) : s.forEnc e k = k E := by
  simp [State.forEnc, hE]

/-- A request for an engine that does not exist is refused. -/
theorem State.forEnc_refused {k : Encoder → Outcome} (he : s.encs.length ≤ e) : s.forEnc e k = .next s.refuse := by
  simp [State.forEnc, List.getElem?_eq_none he]

theorem State.forEnc_next {k : Encoder → Outcome} (h : s.forEnc e k = .next t) :
    (s.encs.length ≤ e ∧ t = s.refuse) ∨ ∃ E, s.encs[e]? = some E ∧ k E = .next t := by
  unfold State.forEnc at h
  split at h
  · next hE => cases h; exact .inl ⟨List.getElem?_eq_none_iff.1 hE, rfl⟩
  · next E hE => exact .inr ⟨E, hE, h⟩

theorem State.atAcc_next {a : AccInst} {k : Byte → State} (h : s.atAcc a k = .next t) :
    ∃ acc, s.acc? a = some acc ∧ t = k acc := by
  unfold State.atAcc at h
  split at h
  · cases h
  · next acc ha => cases h; exact ⟨acc, ha, rfl⟩

/-! ## The lock -/

theorem Lock.acquire_eq_some_iff (l m : Lock) (e : Nat) : l.acquire e = some m ↔ l = .free ∧ m = .held e := by
  cases l <;> simp [Lock.acquire, eq_comm]

theorem Lock.acquire_eq_none_iff (l : Lock) (e : Nat) : l.acquire e = none ↔ l ≠ .free := by
  cases l <;> simp [Lock.acquire]

theorem Lock.afterRelease_ne_held (r : RelAnswer) (e : Nat) : Lock.afterRelease r ≠ .held e := by
  cases r <;> simp [Lock.afterRelease]

/-! ## Writing one engine -/

/-- After writing engine `e`, it reads as written and every other engine as before. -/
theorem State.setEnc_getElem? (s : State) (e f : Nat) (E : Encoder) :
    (s.setEnc e E).encs[f]? = if e = f then (if e < s.encs.length then some E else none) else s.encs[f]? := by
  simp only [State.setEnc_encs, List.getElem?_set]

theorem State.lt_of_enc (hE : s.encs[e]? = some E) : e < s.encs.length :=
  (List.getElem?_eq_some_iff.1 hE).1

/-! ## Commit (R152) -/

theorem State.commit_of_not_pend (d : Byte) (h : s.dec.pend = false) :
    s.commit d = s.setDec { s.dec with prev := d, pend := true } := by simp [State.commit, h]

theorem State.commit_store (d : Byte) (h : s.dec.pend = true) (hn : s.dec.n.toNat < s.dec.bound) :
    s.commit d = { s with
      dec := { s.dec with acc := s.dec.acc + s.dec.prev, n := s.dec.n + 1#8, prev := d }
      obuf := s.obuf.write s.dec.n.toNat s.dec.prev } := by
  simp [State.commit, State.commitCandidate, h, hn, State.setDec, Acc.add]

theorem State.commit_drop (d : Byte) (h : s.dec.pend = true) (hn : ¬s.dec.n.toNat < s.dec.bound) :
    s.commit d = s.setDec { s.dec with acc := s.dec.acc + s.dec.prev, prev := d } := by
  simp [State.commit, State.commitCandidate, h, hn, State.setDec, Acc.add]

theorem Decoder.bound_le (D : Decoder) : D.bound ≤ 255 := by
  have := D.size.isLt; unfold Decoder.bound; omega

/-! ## The accumulator -/

theorem Acc.fold_toNat (acc : Byte) : (Acc.fold acc).toNat = acc.toNat % 128 := by
  have : (acc &&& 0x7F#8).toNat = acc.toNat % 2 ^ 7 := by
    rw [BitVec.toNat_and]; exact Nat.and_two_pow_sub_one_eq_mod _ 7
  simpa [Acc.fold, Config.chkMask] using this

theorem Acc.cmp_iff (acc x : Byte) : Acc.cmp acc x = true ↔ x.toNat = acc.toNat % 128 := by
  rw [Acc.cmp, beq_iff_eq, ← Acc.fold_toNat, ← BitVec.toNat_inj]
  exact eq_comm

/-! ## The step -/

theorem step_eq_advance (hv : s.config.valid = true) : step s = s.advance := by simp [step, hv]

theorem step_next_cases (h : step s = .next t) :
    s.config.valid = true ∧
      ((∃ m, s.micro = some m ∧ { s with micro := none }.runFetched (.acc m.inst m.op m.operand) = .next t)
        ∨ (s.micro = none ∧ s.pending = [] ∧ t = s)
        ∨ ∃ ev rest, s.micro = none ∧ s.pending = ev :: rest ∧ { s with pending := rest }.move ev = .next t) := by
  unfold step at h
  split at h
  · next hv =>
    refine ⟨hv, ?_⟩
    unfold State.advance at h
    split at h
    · next m hm => exact .inl ⟨m, hm, h⟩
    · next hm =>
      split at h
      · next hp => cases h; exact .inr (.inl ⟨hm, hp, rfl⟩)
      · next ev rest hp => exact .inr (.inr ⟨ev, rest, hm, hp, h⟩)
  · cases h

theorem State.runFetched_ok {f : Fetched} {i : Instr} (h : decode s.config f = .ok i) : s.runFetched f = exec i s := by
  simp [State.runFetched, h]

theorem State.runFetched_error {f : Fetched} {r : Reject} (h : decode s.config f = .error r) :
    s.runFetched f = s.reject f r := by
  simp [State.runFetched, h]

theorem State.fetchEnc_body (hE : s.encs[e]? = some E) (hp : E.phase = .body) (d : LockDraw) :
    s.fetchEnc e d = (.enc e (encWord .body (s.payloadByte E).1) d, (s.payloadByte E).2) := by
  simp [State.fetchEnc, hE, hp]

theorem State.fetchEnc_of_ne_body (hE : s.encs[e]? = some E) (hp : E.phase ≠ .body) (d : LockDraw) :
    s.fetchEnc e d = (.enc e (encWord E.phase 0#8) d, s) := by
  simp [State.fetchEnc, hE, hp]

end Sys2Proof.Machine
end

