-- ==== Sys2Proof/Laws/PerInstr.lean ====
section
/-! SUPPORT. Per-instruction laws: the word the encoder builds has the format of the instruction's row in the opcode table. -/
namespace Sys2Proof.Laws.WordFormat

def Statement (i : Instr) : Prop := ∀ p : Config, (encode p i).format = i.format

theorem encode (e : Nat) (len : Byte) : Statement (.encode e len) := fun _ => rfl

theorem decode (m : Byte) : Statement (.decode m) := fun _ => rfl

theorem cancel : Statement (.cancel) := fun _ => rfl

theorem writeIbuf (e : Nat) (i : Nat) (v : Byte) : Statement (.writeIbuf e i v) := fun _ => rfl

theorem readObuf (i : Nat) : Statement (.readObuf i) := fun _ => rfl

theorem readStatusEnc (e : Nat) : Statement (.readStatusEnc e) := fun _ => rfl

theorem readStatusDec : Statement (.readStatusDec) := fun _ => rfl

theorem reservedOp7 (r : BitVec 28) : Statement (.reservedOp7 r) := fun _ => rfl

theorem reservedOp8ToF (r : BitVec 31) : Statement (.reservedOp8ToF r) := fun _ => rfl

theorem encAcq (e : Nat) (a : AcqAnswer) : Statement (.encAcq e a) := fun _ => rfl

theorem encFlush (e : Nat) : Statement (.encFlush e) := fun _ => rfl

theorem encStart (e : Nat) : Statement (.encStart e) := fun _ => rfl

theorem encSize (e : Nat) : Statement (.encSize e) := fun _ => rfl

theorem encBodyEscEnd (e : Nat) : Statement (.encBodyEscEnd e) := fun _ => rfl

theorem encBodyEscEsc (e : Nat) : Statement (.encBodyEscEsc e) := fun _ => rfl

theorem encBodyLit (e : Nat) (b : Byte) : Statement (.encBodyLit e b) := fun _ => rfl

theorem encEsc2 (e : Nat) : Statement (.encEsc2 e) := fun _ => rfl

theorem encChk (e : Nat) : Statement (.encChk e) := fun _ => rfl

theorem encEnd (e : Nat) : Statement (.encEnd e) := fun _ => rfl

theorem encRel (e : Nat) (r : RelAnswer) : Statement (.encRel e r) := fun _ => rfl

theorem decAsStart : Statement (.decAsStart) := fun _ => rfl

theorem decAsOther (c : Byte) : Statement (.decAsOther c) := fun _ => rfl

theorem decRsAny (c : Byte) : Statement (.decRsAny c) := fun _ => rfl

theorem decRbEnd : Statement (.decRbEnd) := fun _ => rfl

theorem decRbEsc : Statement (.decRbEsc) := fun _ => rfl

theorem decRbData (c : Byte) : Statement (.decRbData c) := fun _ => rfl

theorem decBeEscEnd : Statement (.decBeEscEnd) := fun _ => rfl

theorem decBeEscEsc : Statement (.decBeEscEsc) := fun _ => rfl

theorem decBeBad (c : Byte) : Statement (.decBeBad c) := fun _ => rfl

theorem accClear (a : AccInst) : Statement (.accClear a) := fun _ => rfl

theorem accAdd (a : AccInst) (d : Byte) : Statement (.accAdd a d) := fun _ => rfl

theorem accFold (a : AccInst) : Statement (.accFold a) := fun _ => rfl

theorem accCmp (a : AccInst) (x : Byte) : Statement (.accCmp a x) := fun _ => rfl

theorem linkDeliver (c : Byte) : Statement (.linkDeliver c) := fun _ => rfl

end Sys2Proof.Laws.WordFormat
end

