-- ==== Sys2Proof/Laws/Steps.lean ====
section
/-! SUPPORT. What a step can do, said once: the moves of an engine, of the decoder, of a request, of a micro-operation, and the choice that leads to each. -/
namespace Sys2Proof.Machine

/-! ## Encoder steps -/

/-- The moves of engine `e`: from lock and registers to lock, registers and emitted octets. -/
inductive EncMove (o : ControlOctets) (e : Nat) : Lock → Encoder → Lock → Encoder → List Byte → Prop
  | acqOk {E} (h : E.phase = .acq) : EncMove o e .free E (.held e) { E with phase := .flush } []
  | acqWait {l E} (h : E.phase = .acq) (hl : l ≠ .free) : EncMove o e l E l E []
  | acqFail {l E} (h : E.phase = .acq) : EncMove o e l E l (E.finish .lockAcquireFailed) []
  | flush {l E} (h : E.phase = .flush) : EncMove o e l E l { E with phase := .start } [o.endOctet]
  | start {l E} (h : E.phase = .start) : EncMove o e l E l { E with phase := .size } [o.startOctet]
  | size {l E} (h : E.phase = .size) :
      EncMove o e l E l { E with phase := if E.len = 0#8 then .chk else .body } [E.len]
  | escEnd {l E} (h : E.phase = .body) (hb : E.holds o.endOctet = true) :
      EncMove o e l E l { E.takeByte o.endOctet with sub := o.escEnd, phase := .esc2 } [o.escOctet]
  | escEsc {l E} (h : E.phase = .body) (hb : E.holds o.escOctet = true) :
      EncMove o e l E l { E.takeByte o.escOctet with sub := o.escEsc, phase := .esc2 } [o.escOctet]
  | lit {l E b} (h : E.phase = .body) (hb : E.holds b = true) (h1 : b ≠ o.endOctet) (h2 : b ≠ o.escOctet) :
      EncMove o e l E l { E.takeByte b with phase := (E.takeByte b).afterByte } [b]
  | esc2 {l E} (h : E.phase = .esc2) : EncMove o e l E l { E with phase := E.afterByte } [E.sub]
  | chk {l E} (h : E.phase = .chk) : EncMove o e l E l { E with phase := .endMark } [Acc.fold E.acc]
  | endMark {l E} (h : E.phase = .endMark) : EncMove o e l E l { E with phase := .rel } [o.endOctet]
  | rel {l E} (r : RelAnswer) (h : E.phase = .rel) :
      EncMove o e l E (Lock.afterRelease r) (E.finish (Status.ofRelease r)) []

theorem exec_enc_next {i : Instr} {e : Nat} {s t : State} (hi : i.encEngine? = some e) (h : exec i s = .next t) :
    ∃ E l E' out, s.encs[e]? = some E ∧ EncMove s.ctl e s.lock E l E' out
      ∧ t = { s with lock := l, encs := s.encs.set e E', txlog := s.txlog ++ out } := by
  cases i <;> simp only [Instr.encEngine?, Option.some.injEq, reduceCtorEq] at hi <;> subst hi <;> simp only [exec] at h
  case encAcq e a =>
    obtain ⟨E, hE, hp, hk⟩ := State.atPhase_next h
    cases a with
    | ok =>
      dsimp only at hk
      split at hk
      · next l hl =>
        obtain ⟨hf, rfl⟩ := (Lock.acquire_eq_some_iff ..).1 hl
        cases hk
        exact ⟨E, .held e, { E with phase := .flush }, [], hE, by rw [hf]; exact .acqOk hp, by simp [State.setEnc]⟩
      · next hl =>
        cases hk
        refine ⟨E, _, _, _, hE, .acqWait hp ((Lock.acquire_eq_none_iff ..).1 hl), ?_⟩
        have : s.encs.set e E = s.encs := List.ext_getElem? fun k => by
          rw [List.getElem?_set]; grind
        simp [this]
    | fail => cases hk; exact ⟨E, _, _, _, hE, .acqFail hp, by simp [State.setEnc]⟩
  case encFlush e =>
    obtain ⟨E, hE, hp, hk⟩ := State.atPhase_next h
    cases hk; exact ⟨E, _, _, _, hE, .flush hp, rfl⟩
  case encStart e =>
    obtain ⟨E, hE, hp, hk⟩ := State.atPhase_next h
    cases hk; exact ⟨E, _, _, _, hE, .start hp, rfl⟩
  case encSize e =>
    obtain ⟨E, hE, hp, hk⟩ := State.atPhase_next h
    cases hk; exact ⟨E, _, _, _, hE, .size hp, rfl⟩
  case encBodyEscEnd e =>
    obtain ⟨E, hE, hp, hb, hk⟩ := State.atByte_next h
    cases hk; exact ⟨E, _, _, _, hE, .escEnd hp hb, rfl⟩
  case encBodyEscEsc e =>
    obtain ⟨E, hE, hp, hb, hk⟩ := State.atByte_next h
    cases hk; exact ⟨E, _, _, _, hE, .escEsc hp hb, rfl⟩
  case encBodyLit e b =>
    obtain ⟨E, hE, hp, hb, hk⟩ := State.atByte_next h
    split at hk
    · cases hk
    · next hn =>
      rw [not_or] at hn
      cases hk; exact ⟨E, _, _, _, hE, .lit hp hb hn.1 hn.2, rfl⟩
  case encEsc2 e =>
    obtain ⟨E, hE, hp, hk⟩ := State.atPhase_next h
    cases hk; exact ⟨E, _, _, _, hE, .esc2 hp, rfl⟩
  case encChk e =>
    obtain ⟨E, hE, hp, hk⟩ := State.atPhase_next h
    cases hk; exact ⟨E, _, _, _, hE, .chk hp, rfl⟩
  case encEnd e =>
    obtain ⟨E, hE, hp, hk⟩ := State.atPhase_next h
    cases hk; exact ⟨E, _, _, _, hE, .endMark hp, rfl⟩
  case encRel e r =>
    obtain ⟨E, hE, hp, hk⟩ := State.atPhase_next h
    cases hk; exact ⟨E, _, _, _, hE, .rel r hp, by simp [State.setEnc]⟩

/-! ## Decoder steps -/

/-- The candidate's commit, on the decoder's registers and OBUF (R152). -/
inductive Committed (d : Byte) : Decoder → Memory → Decoder → Memory → Prop
  | first {D m} (h : D.pend = false) : Committed d D m { D with prev := d, pend := true } m
  | store {D m} (h : D.pend = true) (hn : D.n.toNat < D.bound) :
      Committed d D m { D with acc := D.acc + D.prev, n := D.n + 1#8, prev := d } (m.write D.n.toNat D.prev)
  | drop {D m} (h : D.pend = true) (hn : ¬D.n.toNat < D.bound) :
      Committed d D m { D with acc := D.acc + D.prev, prev := d } m

/-- The decoder's moves on octet `c`: from registers and OBUF to registers and OBUF. -/
inductive DecMove (o : ControlOctets) : Byte → Decoder → Memory → Decoder → Memory → Prop
  | asStart {D m} (h : D.phase = .awaitStart) : DecMove o o.startOctet D m { D with phase := .readSize } m
  | asOther {c D m} (h : D.phase = .awaitStart) (hc : c ≠ o.startOctet) : DecMove o c D m D m
  | rsAny {c D m} (h : D.phase = .readSize) :
      DecMove o c D m { D with size := c, acc := 0#8, n := 0#8, pend := false, phase := .readBody } m
  | rbEndOk {D m} (h : D.phase = .readBody) (hp : D.pend = true) (hc : Acc.cmp D.acc D.prev = true) :
      DecMove o o.endOctet D m (D.finish .ok) m
  | rbEndBad {D m} (h : D.phase = .readBody) (hc : (D.pend && Acc.cmp D.acc D.prev) = false) :
      DecMove o o.endOctet D m (D.finish .checksumMismatch) m
  | rbEsc {D m} (h : D.phase = .readBody) : DecMove o o.escOctet D m { D with phase := .bodyEsc } m
  | rbData {c D m D' m'} (h : D.phase = .readBody) (h1 : c ≠ o.endOctet) (h2 : c ≠ o.escOctet)
      (hc : Committed c D m D' m') : DecMove o c D m D' m'
  | beEscEnd {D m D' m'} (h : D.phase = .bodyEsc) (hc : Committed o.endOctet D m D' m') :
      DecMove o o.escEnd D m { D' with phase := .readBody } m'
  | beEscEsc {D m D' m'} (h : D.phase = .bodyEsc) (hc : Committed o.escOctet D m D' m') :
      DecMove o o.escEsc D m { D' with phase := .readBody } m'
  | beBad {c D m} (h : D.phase = .bodyEsc) (h1 : c ≠ o.escEnd) (h2 : c ≠ o.escEsc) :
      DecMove o c D m (D.finish .malformedEscape) m

theorem State.commit_cases (s : State) (d : Byte) :
    ∃ D' m', Committed d s.dec s.obuf D' m' ∧ s.commit d = { s with dec := D', obuf := m' } := by
  by_cases hp : s.dec.pend = true
  · by_cases hn : s.dec.n.toNat < s.dec.bound
    · exact ⟨_, _, .store hp hn, State.commit_store d hp hn⟩
    · exact ⟨_, _, .drop hp hn, State.commit_drop d hp hn⟩
  · have hp : s.dec.pend = false := by simpa using hp
    exact ⟨_, _, .first hp, State.commit_of_not_pend d hp⟩

theorem exec_dec_next {i : Instr} {s t : State} (hi : i.format = .decSel) (h : exec i s = .next t) :
    ∃ c rest D' m', s.rxq = c :: rest ∧ DecMove s.ctl c s.dec s.obuf D' m'
      ∧ t = { s with rxq := rest, dec := D', obuf := m' } := by
  cases i <;> simp only [Instr.format, reduceCtorEq] at hi <;> simp only [exec] at h <;>
    obtain ⟨hp, rest, hq, hk⟩ := State.onOctet_next h
  case decAsStart => cases hk; exact ⟨_, rest, _, _, hq, .asStart hp, rfl⟩
  case decAsOther c =>
    split at hk
    · cases hk
    · next hc => cases hk; exact ⟨_, rest, _, _, hq, .asOther hp hc, rfl⟩
  case decRsAny c => cases hk; exact ⟨_, rest, _, _, hq, .rsAny hp, rfl⟩
  case decRbEnd =>
    split at hk
    · next hc =>
      rw [Bool.and_eq_true] at hc
      cases hk; exact ⟨_, rest, _, _, hq, .rbEndOk hp hc.1 hc.2, rfl⟩
    · next hc => cases hk; exact ⟨_, rest, _, _, hq, .rbEndBad hp (by simpa using hc), rfl⟩
  case decRbEsc => cases hk; exact ⟨_, rest, _, _, hq, .rbEsc hp, rfl⟩
  case decRbData c =>
    split at hk
    · cases hk
    · next hn =>
      rw [not_or] at hn
      obtain ⟨D', m', hc, ht⟩ := State.commit_cases { s with rxq := rest } c
      cases hk; exact ⟨_, rest, _, _, hq, .rbData hp hn.1 hn.2 hc, ht⟩
  case decBeEscEnd =>
    obtain ⟨D', m', hc, ht⟩ := State.commit_cases { s with rxq := rest } s.ctl.endOctet
    cases hk; exact ⟨_, rest, _, _, hq, .beEscEnd hp hc, by rw [ht]; rfl⟩
  case decBeEscEsc =>
    obtain ⟨D', m', hc, ht⟩ := State.commit_cases { s with rxq := rest } s.ctl.escOctet
    cases hk; exact ⟨_, rest, _, _, hq, .beEscEsc hp hc, by rw [ht]; rfl⟩
  case decBeBad c =>
    split at hk
    · cases hk
    · next hn =>
      rw [not_or] at hn
      cases hk; exact ⟨_, rest, _, _, hq, .beBad hp hn.1 hn.2, rfl⟩

/-! ## Host requests -/

/-- What a request can do. -/
inductive ReqMove (i : Instr) (s : State) : State → Prop
  | refused : ReqMove i s s.refuse
  | fault (r : DutyFault) : ReqMove i s (s.raiseFault r)
  | tooLarge {e len E} (hi : i = .encode e len) (hE : s.encs[e]? = some E) (hp : E.phase = .idle)
      (hl : 128 < len.toNat) :
      ReqMove i s { s with
        encs := s.encs.set e { E with status := .payloadTooLarge, done := true }, response := some 0#32 }
  | encode {e len E} (hi : i = .encode e len) (hE : s.encs[e]? = some E) (hp : E.phase = .idle)
      (hl : len.toNat ≤ 128) :
      ReqMove i s { s with
        encs := s.encs.set e { E with
          phase := .acq, len := len, idx := 0#8, sub := 0#8, acc := 0#8, status := .none, done := false }
        response := some 0#32 }
  | decode {m} (hi : i = .decode m) (hp : s.dec.phase = .idle) :
      ReqMove i s { s with dec := Decoder.fresh m, response := some 0#32 }
  | cancel (hi : i = .cancel) (hp : s.dec.phase ≠ .idle) (hq : s.rxq = []) :
      ReqMove i s { s with dec := s.dec.finish .cancelled, response := some 0#32 }
  | writeIbuf {e j v E} (hi : i = .writeIbuf e j v) (hE : s.encs[e]? = some E) (hp : E.phase = .idle) (hj : j < 128) :
      ReqMove i s { s with encs := s.encs.set e { E with ibuf := E.ibuf.write j v }, response := some 0#32 }
  | answer (w : Word) (k : Nat) : ReqMove i s { s with response := some w, draws := k }

theorem exec_req_next {i : Instr} {s t : State} (hi : i.format = .hostReq) (h : exec i s = .next t) :
    ReqMove i s t := by
  cases i <;> simp only [Instr.format, reduceCtorEq] at hi <;> simp only [exec] at h
  case encode e len =>
    obtain ⟨_, rfl⟩ | ⟨E, hE, hk⟩ := State.forEnc_next h
    · exact .refused
    · split at hk
      · cases hk; exact .fault _
      · next hb =>
        have hp : E.phase = .idle := by simpa [Encoder.busy] using hb
        cases hk
        by_cases hl : 128 < len.toNat
        · have := ReqMove.tooLarge rfl hE hp hl
          simpa [Config.maxPayload, hl, Encoder.finish, hp, State.setEnc, State.respond] using this
        · have := ReqMove.encode rfl hE hp (Nat.not_lt.1 hl)
          simpa [Config.maxPayload, hl, State.setEnc, State.respond, Acc.clear] using this
  case decode m =>
    unfold execDecode at h
    split at h
    · cases h; exact .fault _
    · next hb => cases h; exact .decode rfl (by simpa [Decoder.busy] using hb)
  case cancel =>
    unfold execCancel at h
    split at h
    · next hb =>
      cases h
      simp only [Decoder.busy, Bool.and_eq_true, bne_iff_ne, List.isEmpty_iff] at hb
      exact .cancel rfl hb.1 hb.2
    · cases h; exact .fault _
  case writeIbuf e j v =>
    unfold execWriteIbuf at h
    split at h
    · next hj =>
      obtain ⟨_, rfl⟩ | ⟨E, hE, hk⟩ := State.forEnc_next h
      · exact .refused
      · split at hk
        · cases hk; exact .fault _
        · next hb => cases hk; exact .writeIbuf rfl hE (by simpa [Encoder.busy] using hb) hj
    · cases h; exact .refused
  case readObuf j =>
    unfold execReadObuf at h
    split at h
    · split at h
      · cases h; exact .fault _
      · split at h
        · cases h; exact .answer _ s.draws
        · cases h; exact .answer _ (s.draws + 1)
    · cases h; exact .refused
  case readStatusEnc e =>
    obtain ⟨_, rfl⟩ | ⟨E, hE, hk⟩ := State.forEnc_next h
    · exact .refused
    · cases hk; exact .answer _ s.draws
  case readStatusDec => cases h; exact .answer _ s.draws
  case reservedOp7 => cases h; exact .refused
  case reservedOp8ToF => cases h; exact .refused

/-! ## Micro-operations -/

theorem exec_acc_next {i : Instr} {s t : State} (hi : i.format = .accOp) (h : exec i s = .next t) :
    (∃ o, t = { s with accOut := o }) ∨ (∃ v, t = { s with dec := { s.dec with acc := v } })
      ∨ ∃ e E v, s.encs[e]? = some E ∧ t = { s with encs := s.encs.set e { E with acc := v } } := by
  have key : ∀ a acc v, s.acc? a = some acc → s.setAcc a v = t →
      (∃ o, t = { s with accOut := o }) ∨ (∃ v, t = { s with dec := { s.dec with acc := v } })
      ∨ ∃ e E v, s.encs[e]? = some E ∧ t = { s with encs := s.encs.set e { E with acc := v } } := by
    intro a acc v ha ht
    cases a with
    | dec => exact .inr (.inl ⟨v, ht.symm⟩)
    | enc e =>
      simp only [State.acc?, Option.map_eq_some_iff] at ha
      obtain ⟨E, hE, _⟩ := ha
      simp only [State.setAcc, hE] at ht
      exact .inr (.inr ⟨e, E, v, hE, ht.symm⟩)
  cases i <;> simp only [Instr.format, reduceCtorEq] at hi <;> simp only [exec] at h <;>
    obtain ⟨acc, ha, rfl⟩ := State.atAcc_next h
  case accClear a => exact key a acc _ ha rfl
  case accAdd a d => exact key a acc _ ha rfl
  case accFold a => exact .inl ⟨_, rfl⟩
  case accCmp a x => exact .inl ⟨_, rfl⟩

/-! ## The step -/

/-- The rows of the table a scheduler choice can lead to. -/
inductive Chooses : Event → Instr → Prop
  | host {w i} (hi : i.format = .hostReq) : Chooses (.host w) i
  | enc {e d i} (hi : i.encEngine? = some e) : Chooses (.enc e d) i
  | dec {i} (hi : i.format = .decSel) : Chooses .dec i
  | link (c) : Chooses (.link c) (.linkDeliver c)

theorem State.fetchEnc_cases (s : State) (e : Nat) (d : LockDraw) :
    ∃ w dr, s.fetchEnc e d = (.enc e w d, { s with draws := dr }) := by
  unfold State.fetchEnc
  split
  · exact ⟨_, s.draws, rfl⟩
  · next E _ =>
    split
    · obtain ⟨_, k, hk⟩ := State.payloadByte_cases (s := s) E
      exact ⟨encWord .body (s.payloadByte E).1, k, Prod.ext rfl hk⟩
    · exact ⟨_, s.draws, rfl⟩

/-- What a choice can do: a wait, a refused request, the reset event, or an instruction of the picked agent. -/
theorem State.move_next {u t : State} {ev : Event} (h : u.move ev = .next t) :
    ∃ v : State, (∃ dr, v = { u with draws := dr })
      ∧ (t = v ∨ t = v.refuse ∨ (ev = .reset ∧ t = v.applyReset) ∨ ∃ i, exec i v = .next t ∧ Chooses ev i) := by
  cases ev with
  | host w =>
    refine ⟨u, ⟨u.draws, rfl⟩, ?_⟩
    simp only [State.move, State.runFetched] at h
    split at h
    · next i hi => exact .inr (.inr (.inr ⟨i, h, .host (decodeHost_format hi)⟩))
    · cases h; exact .inr (.inl rfl)
  | enc e d =>
    obtain ⟨w, dr, hf⟩ := u.fetchEnc_cases e d
    refine ⟨{ u with draws := dr }, ⟨dr, rfl⟩, ?_⟩
    simp only [State.move, hf, State.runFetched] at h
    split at h
    · next i hi => exact .inr (.inr (.inr ⟨i, h, .enc (decodeEnc_engine hi)⟩))
    · simp only [State.reject] at h
      split at h
      · cases h
      · cases h; exact .inl rfl
  | dec =>
    refine ⟨u, ⟨u.draws, rfl⟩, ?_⟩
    simp only [State.move, State.fetchDec] at h
    split at h
    · cases h; exact .inl rfl
    · next f hf =>
      split at hf
      · cases hf
      · cases hf
        simp only [State.runFetched] at h
        split at h
        · next i hi => exact .inr (.inr (.inr ⟨i, h, .dec (decodeDec_format hi)⟩))
        · cases h; exact .inl rfl
  | link c => exact ⟨u, ⟨u.draws, rfl⟩, .inr (.inr (.inr ⟨.linkDeliver c, h, .link c⟩))⟩
  | reset => exact ⟨u, ⟨u.draws, rfl⟩, .inr (.inr (.inl ⟨rfl, by cases h; rfl⟩))⟩

/-- Everything a step that answers a next state can be: a bare micro-operation, standing still with nothing pending, or
what the next choice can do. `u` is the state without what the step consumed. -/
theorem step_moves {s t : State} (h : step s = .next t) :
    s.config.valid = true ∧ ∃ u : State, (∃ dr pe, u = { s with micro := none, draws := dr, pending := pe }) ∧
      ((s.micro ≠ none ∧ ∃ i, i.format = .accOp ∧ exec i u = .next t)
        ∨ (s.micro = none ∧ t = u)
        ∨ ∃ ev rest, s.micro = none ∧ s.pending = ev :: rest ∧
          (t = u.refuse ∨ (ev = .reset ∧ t = u.applyReset) ∨ ∃ i, exec i u = .next t ∧ Chooses ev i)) := by
  obtain ⟨hv, ⟨m, hm, h⟩ | ⟨hm, hp, rfl⟩ | ⟨ev, rest, hm, hp, h⟩⟩ := step_next_cases h
  · refine ⟨hv, _, ⟨s.draws, s.pending, rfl⟩, .inl ⟨by simp [hm], ?_⟩⟩
    unfold State.runFetched at h
    split at h
    · next i hi => exact ⟨i, decodeAcc_format hi, h⟩
    · cases h
  · exact ⟨hv, t, ⟨t.draws, t.pending, by rw [← hm]⟩, .inr (.inl ⟨hm, rfl⟩)⟩
  · obtain ⟨v, ⟨dr, hd⟩, hc⟩ := State.move_next h
    refine ⟨hv, v, ⟨dr, rest, by rw [hd, ← hm]⟩, ?_⟩
    rcases hc with rfl | hc
    · exact .inr (.inl ⟨hm, rfl⟩)
    · exact .inr (.inr ⟨ev, rest, hm, hp, hc⟩)

end Sys2Proof.Machine
end

