-- ==== Sys2Proof/Laws/Safety.lean ====
section
/-! SUPPORT. The predicates of Safety.lean: what a commit does to the frame's committed octets. -/
namespace Sys2Proof.Machine

@[simp] theorem Decoder.hasCommitted_nil (D : Decoder) (m : Memory) :
    D.HasCommitted m [] ↔ D.acc = 0#8 ∧ D.n = 0#8 := by
  simp only [Decoder.HasCommitted, List.map_nil, List.sum_nil, Nat.zero_mod, List.length_nil, Nat.zero_min,
    BitVec.toNat_eq (y := 0#8), BitVec.toNat_ofNat]
  exact ⟨fun h => ⟨h.1, h.2.1⟩, fun h => ⟨h.1, h.2, fun k hk => by omega⟩⟩

/-- A commit appends the old candidate, if there is one, and nothing otherwise (R152). -/
theorem Committed.hasCommitted {d : Byte} {D D' : Decoder} {m m' : Memory} {L : List Byte}
    (hc : Committed d D m D' m') (h : D.HasCommitted m L) :
    D'.HasCommitted m' (if D.pend = true then L ++ [D.prev] else L) := by
  obtain ⟨hacc, hn, hread⟩ := h
  have hsum : (D.acc + D.prev).toNat = ((L ++ [D.prev]).map BitVec.toNat).sum % 256 := by
    simp [BitVec.toNat_add, hacc]
  have hb := D.bound_le
  cases hc with
  | first hp => rw [if_neg (by simp [hp])]; exact ⟨hacc, hn, hread⟩
  | store hp hlt =>
    have hlen : D.n.toNat = L.length := by omega
    have hn1 : (D.n + 1#8).toNat = L.length + 1 := by rw [BitVec.toNat_add]; simp; omega
    rw [if_pos hp]
    refine ⟨hsum, ?_, fun k hk => ?_⟩
    · change (D.n + 1#8).toNat = min (L ++ [D.prev]).length D.bound
      rw [hn1, List.length_append, List.length_singleton]; omega
    · rw [Memory.read_write, hlen]
      rw [hn1] at hk
      split
      · next hk => simp [← hk]
      · rw [List.getElem?_append_left (by omega)]; exact hread k (by omega)
  | drop hp hge =>
    rw [if_pos hp]
    refine ⟨hsum, ?_, fun k hk => ?_⟩
    · change D.n.toNat = min (L ++ [D.prev]).length D.bound
      rw [List.length_append, List.length_singleton]; omega
    · have hk : k < D.n.toNat := hk
      rw [List.getElem?_append_left (by omega)]; exact hread k hk

end Sys2Proof.Machine
end

