-- ==== Sys2Proof/Tests/Slice0.lean ====
section
/-! SUPPORT. The model's own tests: the smoke test of WellFormed, the decoding of every row's word, one or two steps per instruction from the vectors of 95_test_vectors.md, and a witness for the hypotheses of every statement. -/
namespace Sys2Proof.Tests

open Sys2Proof Sys2Proof.Machine

/-! ## Well-formedness: one ill-formed term for each check (R71, R81, R82, R86, R88, R89, R91) -/

theorem test_wellFormed_accepts_boundaries :
    [Instr.encode 1 0xFF#8, .writeIbuf 1 127 0xFF#8, .readObuf 254, .readStatusEnc 0, .encBodyLit 1 0xC1#8,
      .decAsOther 0xC0#8, .decRbData 0xC1#8, .decBeBad 0xC0#8, .accAdd (.enc 1) 1#8].all (Instr.wellFormed Config.ref)
      = true := by decide

theorem test_wellFormed_refuses_engine :
    [Instr.encode 2 0#8, .writeIbuf 2 0 0#8, .readStatusEnc 2, .encAcq 2 .ok, .encFlush 2, .encStart 2, .encSize 2,
      .encBodyEscEnd 2, .encBodyEscEsc 2, .encBodyLit 2 0#8, .encEsc2 2, .encChk 2, .encEnd 2, .encRel 2 .ok,
      .accClear (.enc 2), .accAdd (.enc 2) 0#8, .accFold (.enc 2), .accCmp (.enc 2) 0#8].any
      (Instr.wellFormed Config.ref) = false := by decide

theorem test_wellFormed_refuses_index :
    Instr.wellFormed Config.ref (.writeIbuf 0 128 0#8) = false ∧ Instr.wellFormed Config.ref (.readObuf 255) = false := by
  decide

theorem test_wellFormed_refuses_octet_of_another_row :
    [Instr.encBodyLit 0 0xC0#8, .encBodyLit 0 0xDB#8, .decAsOther 0xC1#8, .decRbData 0xC0#8, .decRbData 0xDB#8,
      .decBeBad 0xDC#8, .decBeBad 0xDD#8].any (Instr.wellFormed Config.ref) = false := by decide

/-- K1 to K5 (R71) and the range of `N_ENC`, each broken in turn. -/
theorem test_config_constraints :
    Config.valid Config.ref = true
      ∧ [{ Config.ref.octets with startOctet := 0xC0#8 }, { Config.ref.octets with startOctet := 0xDB#8 },
          { Config.ref.octets with escOctet := 0xC0#8 }, { Config.ref.octets with escEsc := 0xDC#8 },
          { Config.ref.octets with escEnd := 0xC0#8 }, { Config.ref.octets with escEnd := 0xDB#8 },
          { Config.ref.octets with escEsc := 0xC0#8 }, { Config.ref.octets with escEsc := 0xDB#8 },
          { Config.ref.octets with endOctet := 0x80#8 }, { Config.ref.octets with escOctet := 0x80#8 }].any
          ControlOctets.valid = false
      ∧ Config.valid { Config.ref with nEnc := 0 } = false ∧ Config.valid { Config.ref with nEnc := 257 } = false
      ∧ Config.valid { Config.ref with nEnc := 256 } = true := by decide

/-! ## Decoding: words written out from the encodings (95_test_vectors.md §2; the opcode table's REF words) -/

/-- A word spells an instruction, or is rejected for a reason. -/
def spells (f : Fetched) (r : Except Reject Instr) : Bool :=
  match decode Config.ref f, r with
  | .ok i, .ok j => i == j
  | .error a, .error b => a == b
  | .ok _, .error _ => false
  | .error _, .ok _ => false

/-- V-E01 to V-E22, the accepted words. -/
theorem test_decode_host_words :
    [spells (.host 0x00000003#32) (.ok (.encode 0 3#8)), spells (.host 0x00100004#32) (.ok (.encode 1 4#8)),
      spells (.host 0x00000081#32) (.ok (.encode 0 129#8)), spells (.host 0x100000FF#32) (.ok (.decode 255#8)),
      spells (.host 0x20000000#32) (.ok .cancel), spells (.host 0x300001C0#32) (.ok (.writeIbuf 0 1 0xC0#8)),
      spells (.host 0x30107FFF#32) (.ok (.writeIbuf 1 127 0xFF#8)), spells (.host 0x40000100#32) (.ok (.readObuf 1)),
      spells (.host 0x50100000#32) (.ok (.readStatusEnc 1)), spells (.host 0x60000000#32) (.ok .readStatusDec),
      spells (.host 0x70000000#32) (.ok (.reservedOp7 0#28)),
      spells (.host 0xFFFFFFFF#32) (.ok (.reservedOp8ToF 0x7FFFFFFF#31))].all id = true := by decide

/-- V-E01 to V-E22, the refused words. -/
theorem test_decode_host_rejects :
    [spells (.host 0x00200004#32) (.error .noSuchEngine), spells (.host 0x00010003#32) (.error .reservedBits),
      spells (.host 0x10000100#32) (.error .reservedBits), spells (.host 0x20000001#32) (.error .reservedBits),
      spells (.host 0x30008000#32) (.error .reservedBits), spells (.host 0x4000FF00#32) (.error .obufIndex),
      spells (.host 0x40000101#32) (.error .reservedBits), spells (.host 0x50200000#32) (.error .noSuchEngine),
      spells (.host 0x60000010#32) (.error .reservedBits)].all id = true := by decide

theorem test_decode_encoder_words :
    [spells (.enc 1 0x100#12 { acq := .fail, rel := .ok }) (.ok (.encAcq 1 .fail)),
      spells (.enc 1 0x2FF#12 LockDraw.allOk) (.ok (.encFlush 1)), spells (.enc 0 0x300#12 LockDraw.allOk) (.ok (.encStart 0)),
      spells (.enc 0 0x400#12 LockDraw.allOk) (.ok (.encSize 0)), spells (.enc 0 0x5C0#12 LockDraw.allOk) (.ok (.encBodyEscEnd 0)),
      spells (.enc 0 0x5DB#12 LockDraw.allOk) (.ok (.encBodyEscEsc 0)),
      spells (.enc 0 0x541#12 LockDraw.allOk) (.ok (.encBodyLit 0 0x41#8)), spells (.enc 0 0x600#12 LockDraw.allOk) (.ok (.encEsc2 0)),
      spells (.enc 0 0x700#12 LockDraw.allOk) (.ok (.encChk 0)), spells (.enc 0 0x800#12 LockDraw.allOk) (.ok (.encEnd 0)),
      spells (.enc 0 0x900#12 { acq := .ok, rel := .failBroken }) (.ok (.encRel 0 .failBroken)),
      spells (.enc 0 0x0C0#12 LockDraw.allOk) (.error .noStep), spells (.enc 0 0xA00#12 LockDraw.allOk) (.error .noStep),
      spells (.enc 2 0x100#12 LockDraw.allOk) (.error .noSuchEngine)].all id = true := by decide

theorem test_decode_decoder_words :
    [spells (.dec 0x1C1#11) (.ok .decAsStart), spells (.dec 0x100#11) (.ok (.decAsOther 0#8)),
      spells (.dec 0x204#11) (.ok (.decRsAny 4#8)), spells (.dec 0x3C0#11) (.ok .decRbEnd),
      spells (.dec 0x3DB#11) (.ok .decRbEsc), spells (.dec 0x37F#11) (.ok (.decRbData 0x7F#8)),
      spells (.dec 0x4DC#11) (.ok .decBeEscEnd), spells (.dec 0x4DD#11) (.ok .decBeEscEsc),
      spells (.dec 0x4C0#11) (.ok (.decBeBad 0xC0#8)), spells (.dec 0x0C1#11) (.error .noStep),
      spells (.dec 0x5C1#11) (.error .noStep)].all id = true := by decide

theorem test_decode_acc_and_link :
    [spells (.acc .dec 0b00#2 7#8) (.ok (.accClear .dec)), spells (.acc (.enc 1) 0b01#2 7#8) (.ok (.accAdd (.enc 1) 7#8)),
      spells (.acc .dec 0b10#2 7#8) (.ok (.accFold .dec)), spells (.acc .dec 0b11#2 7#8) (.ok (.accCmp .dec 7#8)),
      spells (.acc (.enc 2) 0b00#2 0#8) (.error .noSuchEngine), spells (.link 0xC0#8) (.ok (.linkDeliver 0xC0#8))].all id
      = true := by decide

theorem test_table_words :
    decodeTableWord 32 0x300001C0 = some (.writeIbuf 0 1 0xC0#8) ∧ decodeTableWord 16 0x1C1 = some .decAsStart
      ∧ decodeTableWord 16 0x5DB = some (.encBodyEscEsc 0) ∧ decodeTableWord 12 0x100 = some (.encAcq 0 .ok)
      ∧ decodeTableWord 8 3 = some (.accCmp .dec 0#8) ∧ decodeTableWord 0 0xC0 = some (.linkDeliver 0xC0#8) := by decide

/-! ## One step per instruction -/

/-- The outcome is a next state that meets `P`. -/
def nextIs (o : Outcome) (P : State → Bool) : Bool :=
  match o with
  | .next t => P t
  | .fault _ => false
  | .refused _ => false

/-- Engine 0 of the trace V-N01, at a row of it. -/
def n01 (ph : EncPhase) (idx sub acc : Byte) : Encoder :=
  { phase := ph, len := 4#8, idx := idx, sub := sub, acc := acc, status := .none, done := false
    ibuf := [(0, 0x01#8), (1, 0xC0#8), (2, 0xDB#8), (3, 0x7F#8)] }

/-- The reset state with engine 0 in `E` and the lock in `l`. -/
def withEngine (E : Encoder) (l : Lock) : State := { State.reset with encs := [E, Encoder.reset], lock := l }

/-- The reset state with the decoder in `D` and `q` received. -/
def withDecoder (D : Decoder) (q : List Byte) : State := { State.reset with dec := D, rxq := q }

/-- The decoder after DECODE 255, START and SIZE 4, at a row of V-D01. -/
def d01 (ph : DecPhase) (n : Byte) (pend : Bool) (prev acc : Byte) : Decoder :=
  { Decoder.fresh 255#8 with phase := ph, size := 4#8, n := n, pend := pend, prev := prev, acc := acc }

/-- The decoder after V-D01. -/
def d01Done : Decoder :=
  { d01 .idle 4#8 true 0x1B#8 0x1B#8 with status := .ok, done := true, rlen := 4#8 }

/-- V-C01. -/
theorem test_encode_starts : nextIs (exec (.encode 0 3#8) State.reset) (fun t =>
    t.encs[0]? == some { Encoder.reset with phase := .acq, len := 3#8 } && t.txlog == [] && t.lock == .free) = true := by decide
/-- V-C09. -/
theorem test_encode_too_large : nextIs (exec (.encode 0 129#8) State.reset) (fun t =>
    t.encs[0]? == some { Encoder.reset with status := .payloadTooLarge, done := true } && t.txlog == []) = true := by decide
/-- V-C02. -/
theorem test_decode_starts : nextIs (exec (.decode 4#8) { State.reset with dec := d01Done }) (fun t =>
    t.dec == { Decoder.reset with phase := .awaitStart, maxlen := 4#8 }) = true := by decide
/-- V-C12. -/
theorem test_decode_busy : nextIs (exec (.decode 9#8) (withDecoder (Decoder.fresh 4#8) [])) (fun t =>
    t.faults == { FaultSet.empty with cmdBusy := true } && t.dec.maxlen == 4#8) = true := by decide
/-- V-C03. -/
theorem test_cancel_at_the_wait : nextIs (exec .cancel (withDecoder (Decoder.fresh 4#8) [])) (fun t =>
    t.dec.phase == .idle && t.dec.status.code == 0x06#8 && t.dec.done && t.dec.rlen == 0#8) = true := by decide
/-- V-C05. -/
theorem test_cancel_not_waiting : nextIs (exec .cancel (withDecoder (Decoder.fresh 4#8) [0#8])) (fun t =>
    t.faults == { FaultSet.empty with cancelNotWaiting := true } && t.dec.phase == .awaitStart) = true := by decide
/-- V-C06. -/
theorem test_write_ibuf : nextIs (exec (.writeIbuf 0 5 0x7E#8) State.reset) (fun t =>
    (t.encs[0]?.map fun E => E.ibuf.read 5) == some (some 0x7E#8)) = true := by decide
/-- V-C07. -/
theorem test_write_ibuf_hazard : nextIs (exec (.writeIbuf 0 0 0x11#8) (withEngine (n01 .acq 0#8 0#8 0#8) .free)) (fun t =>
    t.faults == { FaultSet.empty with ibufHazard := true } && t.encs[0]? == some (n01 .acq 0#8 0#8 0#8)) = true := by decide
/-- V-C18. -/
theorem test_read_obuf : nextIs (exec (.readObuf 1) { State.reset with
    dec := d01Done, obuf := [(0, 0x01#8), (1, 0xC0#8), (2, 0xDB#8), (3, 0x7F#8)] }) (fun t =>
    t.response == some 0x000000C0#32 && t.draws == 0) = true := by decide
/-- V-C13. -/
theorem test_read_obuf_hazard : nextIs (exec (.readObuf 0) (withDecoder (Decoder.fresh 4#8) [])) (fun t =>
    t.faults == { FaultSet.empty with obufHazard := true }) = true := by decide
/-- V-C10. -/
theorem test_read_status_enc : nextIs (exec (.readStatusEnc 0) (withEngine { Encoder.reset with
    status := .payloadTooLarge, done := true } .free)) (fun t => t.response == some 0x00010001#32) = true := by decide
/-- V-C16. -/
theorem test_read_status_dec : nextIs (exec .readStatusDec (withDecoder d01Done [])) (fun t =>
    t.response == some 0x00010400#32) = true := by decide
/-- V-E21. -/
theorem test_reserved_op_7 : nextIs (exec (.reservedOp7 0#28) State.reset) (· == { State.reset with refused := true }) = true := by
  decide
/-- V-E22. -/
theorem test_reserved_op_F : nextIs (exec (.reservedOp8ToF 0x7FFFFFFF#31) State.reset)
    (· == { State.reset with refused := true }) = true := by decide
/-- V-N01 step 1. -/
theorem test_enc_acq : nextIs (exec (.encAcq 0 .ok) (withEngine (n01 .acq 0#8 0#8 0#8) .free)) (fun t =>
    t.lock == .held 0 && t.encs[0]? == some (n01 .flush 0#8 0#8 0#8) && t.txlog == []) = true := by decide
/-- V-N13. -/
theorem test_enc_acq_fail : nextIs (exec (.encAcq 0 .fail) (withEngine (n01 .acq 0#8 0#8 0#8) (.held 1))) (fun t =>
    t.lock == .held 1 && t.encs[0]? == some { n01 .idle 0#8 0#8 0#8 with status := .lockAcquireFailed, done := true })
    = true := by decide
/-- V-N01 step 2. -/
theorem test_enc_flush : nextIs (exec (.encFlush 0) (withEngine (n01 .flush 0#8 0#8 0#8) (.held 0))) (fun t =>
    t.txlog == [0xC0#8] && t.encs[0]? == some (n01 .start 0#8 0#8 0#8)) = true := by decide
/-- V-N01 step 3. -/
theorem test_enc_start : nextIs (exec (.encStart 0) (withEngine (n01 .start 0#8 0#8 0#8) (.held 0))) (fun t =>
    t.txlog == [0xC1#8] && t.encs[0]? == some (n01 .size 0#8 0#8 0#8)) = true := by decide
/-- V-N01 step 4. -/
theorem test_enc_size : nextIs (exec (.encSize 0) (withEngine (n01 .size 0#8 0#8 0#8) (.held 0))) (fun t =>
    t.txlog == [0x04#8] && t.encs[0]? == some (n01 .body 0#8 0#8 0#8)) = true := by decide
/-- V-N02. -/
theorem test_enc_size_zero : nextIs (exec (.encSize 0) (withEngine { n01 .size 0#8 0#8 0#8 with len := 0#8 } (.held 0)))
    (fun t => t.txlog == [0x00#8] && t.encs[0]? == some { n01 .chk 0#8 0#8 0#8 with len := 0#8 }) = true := by decide
/-- V-N01 step 5. -/
theorem test_enc_body_lit : nextIs (exec (.encBodyLit 0 0x01#8) (withEngine (n01 .body 0#8 0#8 0#8) (.held 0))) (fun t =>
    t.txlog == [0x01#8] && t.encs[0]? == some (n01 .body 1#8 0#8 1#8)) = true := by decide
/-- V-N01 step 10: the last byte, and the sum wraps. -/
theorem test_enc_body_lit_last : nextIs (exec (.encBodyLit 0 0x7F#8) (withEngine (n01 .body 3#8 0xDD#8 0x9C#8) (.held 0)))
    (fun t => t.txlog == [0x7F#8] && t.encs[0]? == some (n01 .chk 4#8 0xDD#8 0x1B#8)) = true := by decide
/-- V-N01 step 6. -/
theorem test_enc_body_escend : nextIs (exec (.encBodyEscEnd 0) (withEngine (n01 .body 1#8 0#8 1#8) (.held 0))) (fun t =>
    t.txlog == [0xDB#8] && t.encs[0]? == some (n01 .esc2 2#8 0xDC#8 0xC1#8)) = true := by decide
/-- V-N01 step 8. -/
theorem test_enc_body_escesc : nextIs (exec (.encBodyEscEsc 0) (withEngine (n01 .body 2#8 0xDC#8 0xC1#8) (.held 0)))
    (fun t => t.txlog == [0xDB#8] && t.encs[0]? == some (n01 .esc2 3#8 0xDD#8 0x9C#8)) = true := by decide
/-- V-N01 step 7. -/
theorem test_enc_esc2 : nextIs (exec (.encEsc2 0) (withEngine (n01 .esc2 2#8 0xDC#8 0xC1#8) (.held 0))) (fun t =>
    t.txlog == [0xDC#8] && t.encs[0]? == some (n01 .body 2#8 0xDC#8 0xC1#8)) = true := by decide
/-- V-N09: the accumulator's bit 7 is masked away. -/
theorem test_enc_chk : nextIs (exec (.encChk 0) (withEngine (n01 .chk 4#8 0xDD#8 0x80#8) (.held 0))) (fun t =>
    t.txlog == [0x00#8] && t.encs[0]? == some (n01 .endMark 4#8 0xDD#8 0x80#8)) = true := by decide
/-- V-N01 step 12. -/
theorem test_enc_end : nextIs (exec (.encEnd 0) (withEngine (n01 .endMark 4#8 0xDD#8 0x1B#8) (.held 0))) (fun t =>
    t.txlog == [0xC0#8] && t.encs[0]? == some (n01 .rel 4#8 0xDD#8 0x1B#8)) = true := by decide
/-- V-N01 step 13. -/
theorem test_enc_rel : nextIs (exec (.encRel 0 .ok) (withEngine (n01 .rel 4#8 0xDD#8 0x1B#8) (.held 0))) (fun t =>
    t.lock == .free && t.encs[0]? == some { n01 .idle 4#8 0xDD#8 0x1B#8 with status := .ok, done := true }) = true := by decide
/-- V-N15. -/
theorem test_enc_rel_broken : nextIs (exec (.encRel 0 .failBroken) (withEngine (n01 .rel 4#8 0#8 0#8) (.held 0))) (fun t =>
    t.lock == .broken && (t.encs[0]?.map fun E => E.status.code) == some 0x03#8) = true := by decide
/-- V-D01. -/
theorem test_dec_as_start : nextIs (exec .decAsStart (withDecoder (Decoder.fresh 255#8) [0xC1#8, 4#8])) (fun t =>
    t.rxq == [4#8] && t.dec == { Decoder.fresh 255#8 with phase := .readSize }) = true := by decide
/-- V-D11. -/
theorem test_dec_as_other : nextIs (exec (.decAsOther 0xC0#8) (withDecoder (Decoder.fresh 255#8) [0xC0#8, 0xC1#8])) (fun t =>
    t.rxq == [0xC1#8] && t.dec == Decoder.fresh 255#8) = true := by decide
/-- V-D21: any octet is a size. -/
theorem test_dec_rs_any : nextIs (exec (.decRsAny 0xC0#8) (withDecoder (d01 .readSize 3#8 true 9#8 9#8) [0xC0#8])) (fun t =>
    t.dec == { d01 .readBody 0#8 false 9#8 0#8 with size := 0xC0#8 }) = true := by decide
/-- V-D01, the last octet. -/
theorem test_dec_rb_end : nextIs (exec .decRbEnd (withDecoder (d01 .readBody 4#8 true 0x1B#8 0x1B#8) [0xC0#8])) (fun t =>
    t.rxq == [] && t.dec == d01Done) = true := by decide
/-- V-D20: a candidate with bit 7 set never matches. -/
theorem test_dec_rb_end_mismatch : nextIs (exec .decRbEnd (withDecoder (d01 .readBody 1#8 true 0x80#8 0x80#8) [0xC0#8])) (fun t =>
    t.dec.status.code == 0x04#8 && t.dec.rlen == 0#8 && t.dec.phase == .idle && t.dec.done) = true := by decide
/-- V-D01. -/
theorem test_dec_rb_esc : nextIs (exec .decRbEsc (withDecoder (d01 .readBody 0#8 true 1#8 0#8) [0xDB#8])) (fun t =>
    t.rxq == [] && t.dec == d01 .bodyEsc 0#8 true 1#8 0#8) = true := by decide
/-- V-D01: the candidate 0xDB is stored at index 2, 0x7F becomes the candidate. -/
theorem test_dec_rb_data : nextIs (exec (.decRbData 0x7F#8) (withDecoder (d01 .readBody 2#8 true 0xDB#8 0xC1#8) [0x7F#8])) (fun t =>
    t.dec == d01 .readBody 3#8 true 0x7F#8 0x9C#8 && t.obuf == [(2, 0xDB#8)]) = true := by decide
/-- V-D14: an octet beyond SIZE is summed and not stored. -/
theorem test_dec_rb_data_beyond_size : nextIs (exec (.decRbData 0x30#8) (withDecoder
    { d01 .readBody 1#8 true 0x20#8 0x10#8 with size := 1#8 } [0x30#8])) (fun t =>
    t.dec == { d01 .readBody 1#8 true 0x30#8 0x30#8 with size := 1#8 } && t.obuf == []) = true := by decide
/-- V-D01: ESC, ESC_END is END as a data octet. -/
theorem test_dec_be_escend : nextIs (exec .decBeEscEnd (withDecoder (d01 .bodyEsc 0#8 true 1#8 0#8) [0xDC#8])) (fun t =>
    t.dec == d01 .readBody 1#8 true 0xC0#8 1#8 && t.obuf == [(0, 1#8)]) = true := by decide
/-- V-D01: ESC, ESC_ESC is ESC as a data octet. -/
theorem test_dec_be_escesc : nextIs (exec .decBeEscEsc (withDecoder (d01 .bodyEsc 1#8 true 0xC0#8 1#8) [0xDD#8])) (fun t =>
    t.dec == d01 .readBody 2#8 true 0xDB#8 0xC1#8 && t.obuf == [(1, 0xC0#8)]) = true := by decide
/-- V-D08. -/
theorem test_dec_be_bad : nextIs (exec (.decBeBad 0xC0#8) (withDecoder (d01 .bodyEsc 0#8 false 0#8 0#8) [0xC0#8])) (fun t =>
    t.rxq == [] && t.dec.status.code == 0x05#8 && t.dec.rlen == 0#8 && t.dec.phase == .idle) = true := by decide
/-- V-K01. -/
theorem test_acc_clear : nextIs (exec (.accClear .dec) (withDecoder { Decoder.reset with acc := 0x9C#8 } [])) (fun t =>
    t.dec.acc == 0#8) = true := by decide
/-- V-K02, at an engine's accumulator. -/
theorem test_acc_add : nextIs (exec (.accAdd (.enc 0) 0xDB#8) (withEngine (n01 .idle 0#8 0#8 0xC1#8) .free)) (fun t =>
    t.encs[0]? == some (n01 .idle 0#8 0#8 0x9C#8)) = true := by decide
/-- V-K06. -/
theorem test_acc_fold : nextIs (exec (.accFold .dec) (withDecoder { Decoder.reset with acc := 0xFF#8 } [])) (fun t =>
    t.accOut == .fold 0x7F#8 && t.dec.acc == 0xFF#8) = true := by decide
/-- V-K08: the operand is not masked. -/
theorem test_acc_cmp : nextIs (exec (.accCmp .dec 0x9B#8) (withDecoder { Decoder.reset with acc := 0x1B#8 } [])) (fun t =>
    t.accOut == .eq false) = true := by decide
/-- V-K09: the sum is masked. -/
theorem test_acc_cmp_masked : nextIs (exec (.accCmp .dec 0x1B#8) (withDecoder { Decoder.reset with acc := 0x9B#8 } [])) (fun t =>
    t.accOut == .eq true) = true := by decide
/-- V-C21. -/
theorem test_link_deliver : nextIs (exec (.linkDeliver 0xC0#8) State.reset) (fun t => t.rxq == [0xC0#8]) = true := by decide

/-! ## The step and the word placed at its fetch -/

theorem test_fetch_word_request : nextIs (step (State.reset.withFetchWord 32 0x300001C0)) (fun t =>
    (t.encs[0]?.map fun E => E.ibuf.read 1) == some (some 0xC0#8) && t.pending == []) = true := by decide

theorem test_fetch_word_encoder : nextIs (step (State.reset.withFetchWord 16 0x5C0)) (fun t =>
    t.txlog == [0xDB#8] && (t.encs[0]?.map Encoder.sub) == some 0xDC#8) = true := by decide

theorem test_fetch_word_decoder : nextIs (step (State.reset.withFetchWord 16 0x1C1)) (fun t =>
    t.dec.phase == .readSize && t.rxq == []) = true := by decide

theorem test_fetch_word_acc_and_link :
    nextIs (step (State.reset.withFetchWord 8 2)) (fun t => t.accOut == .fold 0#8 && t.micro == none) = true
      ∧ nextIs (step (State.reset.withFetchWord 0 0xC0)) (fun t => t.rxq == [0xC0#8]) = true := by decide

/-- R10, R11: `chk` of V-K11, V-K13, V-K16, and the frame V-N04. -/
theorem test_reference_functions :
    chk [0x01#8, 0xC0#8, 0xDB#8, 0x7F#8] = 0x1B#8 ∧ chk [0x7F#8, 0x01#8] = 0#8 ∧ chk [0xDC#8, 0xDD#8] = 0x39#8
      ∧ frame Config.ref.octets [0xC1#8] = [0xC0#8, 0xC1#8, 0x01#8, 0xC1#8, 0x41#8, 0xC0#8] := by decide

/-! ## Witnesses: for every statement with hypotheses, states and operands that meet them, clause by clause -/

/-- Engine 0 of V-N01 in phase `ph`, about to act, the lock held by it. -/
def busyEngine (ph : EncPhase) : State := withEngine (n01 ph 0#8 0#8 0#8) (.held 0)

/-- A schedule with `ev` first. -/
def State.sched (s : State) (ev : Event) : State := { s with pending := [ev] }

/-- The word has the request's `op` and a reserved bit set. -/
def hitsReserved (w op reserved : Word) : Prop := w &&& 0xF0000000#32 = op ∧ w &&& reserved ≠ 0#32

theorem witness_EncodeStartsEngineOrRejects :
    (State.reset.encs[0]? = some Encoder.reset ∧ Encoder.reset.phase = .idle ∧ (128#8).toNat ≤ 128 ∧ 128 < (129#8).toNat)
      ∧ ((busyEngine .acq).encs[0]? = some (n01 .acq 0#8 0#8 0#8) ∧ (n01 .acq 0#8 0#8 0#8).phase ≠ .idle)
      ∧ State.reset.encs[2]? = none ∧ hitsReserved 0x00000100#32 0x00000000#32 0x000FFF00#32 := by
  unfold hitsReserved; decide

theorem witness_DecodeReinitialisesDecoder :
    State.reset.dec.phase = .idle ∧ (withDecoder (Decoder.fresh 4#8) []).dec.phase ≠ .idle
      ∧ hitsReserved 0x10000100#32 0x10000000#32 0x0FFFFF00#32 := by
  unfold hitsReserved; decide

theorem witness_CancelOnlyAtTheWait :
    ((withDecoder (Decoder.fresh 4#8) []).dec.phase ≠ .idle ∧ (withDecoder (Decoder.fresh 4#8) []).rxq = [])
      ∧ State.reset.dec.phase = .idle ∧ (withDecoder (Decoder.fresh 4#8) [0#8]).rxq ≠ [] := by decide

theorem witness_WriteIbufStoresOneByte :
    (127 < 128 ∧ State.reset.encs[1]? = some Encoder.reset ∧ Encoder.reset.phase = .idle)
      ∧ ((busyEngine .rel).encs[0]? = some (n01 .rel 0#8 0#8 0#8) ∧ (n01 .rel 0#8 0#8 0#8).phase ≠ .idle)
      ∧ (128 ≤ 128 ∧ State.reset.encs[2]? = none) ∧ hitsReserved 0x30008000#32 0x30000000#32 0x000F8000#32 := by
  unfold hitsReserved; decide

/-- Clause by clause: a good result at its last index; each of the three ways to a draw; a busy decoder. -/
theorem witness_ReadObufAnswersGoodResultOrDraw :
    ∃ s : State, (3 < 255 ∧ s.dec.phase = .idle ∧ s.dec.status = .ok ∧ 3 < s.dec.rlen.toNat ∧ s.obuf.read 3 = some 0x7F#8)
      ∧ s.dec.rlen.toNat ≤ 4 ∧ s.obuf.read 254 = none
      ∧ (State.reset.dec.phase = .idle ∧ State.reset.dec.status ≠ .ok)
      ∧ (withDecoder (Decoder.fresh 4#8) []).dec.phase ≠ .idle :=
  ⟨{ State.reset with dec := d01Done, obuf := [(0, 0x01#8), (1, 0xC0#8), (2, 0xDB#8), (3, 0x7F#8)] }, by decide⟩

theorem witness_ReadStatusEncAnswersStatusWord :
    State.reset.encs[1]? = some Encoder.reset ∧ State.reset.encs[2]? = none
      ∧ hitsReserved 0x50000001#32 0x50000000#32 0x000FFFFF#32 := by
  unfold hitsReserved; decide

theorem witness_ReadStatusDecAnswersStatusWord : hitsReserved 0x60000010#32 0x60000000#32 0x0FFFFFFF#32 := by
  unfold hitsReserved; decide

theorem witness_EncAcqTakesFreeLockWaitsOrFails :
    (withEngine (n01 .acq 0#8 0#8 0#8) .free).encs[0]? = some (n01 .acq 0#8 0#8 0#8)
      ∧ (n01 .acq 0#8 0#8 0#8).phase = .acq ∧ (withEngine (n01 .acq 0#8 0#8 0#8) .free).lock = .free
      ∧ (withEngine (n01 .acq 0#8 0#8 0#8) .broken).encs[0]? = some (n01 .acq 0#8 0#8 0#8)
      ∧ (withEngine (n01 .acq 0#8 0#8 0#8) .broken).lock ≠ .free := by decide

theorem witness_EncControlStepsEmitTheirOctet :
    ∀ ph ∈ [EncPhase.flush, .start, .endMark], (busyEngine ph).encs[0]? = some (n01 ph 0#8 0#8 0#8)
      ∧ (n01 ph 0#8 0#8 0#8).phase = ph := by decide

theorem witness_EncSizeEmitsLength :
    ((busyEngine .size).encs[0]? = some (n01 .size 0#8 0#8 0#8) ∧ (n01 .size 0#8 0#8 0#8).len ≠ 0#8)
      ∧ ∃ E : Encoder, (withEngine E (.held 0)).encs[0]? = some E ∧ E.phase = .size ∧ E.len = 0#8 :=
  ⟨by decide, { n01 .size 0#8 0#8 0#8 with len := 0#8 }, by decide⟩

/-- A byte the host wrote, and one it never wrote. -/
theorem witness_EncBodyLitEmitsTheByte :
    (busyEngine .body).encs[0]? = some (n01 .body 0#8 0#8 0#8) ∧ (n01 .body 0#8 0#8 0#8).phase = .body
      ∧ (n01 .body 0#8 0#8 0#8).ibuf.read 0 = some 1#8 ∧ (n01 .body 4#8 0#8 0#8).ibuf.read 4 = none
      ∧ 1#8 ≠ (busyEngine .body).ctl.endOctet ∧ 1#8 ≠ (busyEngine .body).ctl.escOctet := by decide

theorem witness_EncBodyEscapesControlBytes :
    (n01 .body 1#8 0#8 1#8).phase = .body ∧ (n01 .body 2#8 0#8 1#8).phase = .body
      ∧ (withEngine (n01 .body 1#8 0#8 1#8) (.held 0)).encs[0]? = some (n01 .body 1#8 0#8 1#8)
      ∧ (withEngine (n01 .body 2#8 0#8 1#8) (.held 0)).encs[0]? = some (n01 .body 2#8 0#8 1#8)
      ∧ (n01 .body 1#8 0#8 1#8).ibuf.read 1 = some Config.ref.octets.endOctet
      ∧ (n01 .body 2#8 0#8 1#8).ibuf.read 2 = some Config.ref.octets.escOctet
      ∧ (n01 .body 4#8 0#8 1#8).ibuf.read 4 = none := by decide

theorem witness_EncEsc2AndChkEmit :
    (busyEngine .esc2).encs[0]? = some (n01 .esc2 0#8 0#8 0#8) ∧ (n01 .esc2 0#8 0#8 0#8).phase = .esc2
      ∧ (busyEngine .chk).encs[0]? = some (n01 .chk 0#8 0#8 0#8) ∧ (n01 .chk 0#8 0#8 0#8).phase = .chk := by decide

theorem witness_EncRelReleasesOrFails :
    (busyEngine .rel).encs[0]? = some (n01 .rel 0#8 0#8 0#8) ∧ (n01 .rel 0#8 0#8 0#8).phase = .rel := by decide

theorem witness_DecAwaitStartFindsStart :
    ∀ c ∈ [0xC1#8, 0xC0#8], (withDecoder (Decoder.fresh 4#8) [c]).dec.phase = .awaitStart
      ∧ (withDecoder (Decoder.fresh 4#8) [c]).rxq = c :: [] := by decide

theorem witness_DecReadSizeTakesAnyOctet :
    (withDecoder (d01 .readSize 0#8 false 0#8 0#8) [0xFF#8]).dec.phase = .readSize
      ∧ (withDecoder (d01 .readSize 0#8 false 0#8 0#8) [0xFF#8]).rxq = 0xFF#8 :: [] := by decide

/-- A candidate that matches, none, and one that does not match. -/
theorem witness_DecEndComparesCandidate :
    (∀ D ∈ [d01 .readBody 4#8 true 0x1B#8 0x9B#8, d01 .readBody 0#8 false 0#8 0#8, d01 .readBody 1#8 true 0x80#8 0x80#8],
      (withDecoder D [0xC0#8]).dec.phase = .readBody
        ∧ (withDecoder D [0xC0#8]).rxq = (withDecoder D [0xC0#8]).ctl.endOctet :: [])
      ∧ ((d01 .readBody 4#8 true 0x1B#8 0x9B#8).pend = true ∧ (0x1B#8).toNat = (0x9B#8).toNat % 128)
      ∧ (d01 .readBody 0#8 false 0#8 0#8).pend = false ∧ (0x80#8).toNat ≠ (0x80#8).toNat % 128 := by decide

theorem witness_DecEscapeOpensAndMalformedEnds :
    ((withDecoder (d01 .readBody 0#8 false 0#8 0#8) [0xDB#8]).dec.phase = .readBody ∧ 0xDB#8 = Config.ref.octets.escOctet)
      ∧ ((withDecoder (d01 .bodyEsc 0#8 false 0#8 0#8) [0xC0#8]).dec.phase = .bodyEsc
        ∧ 0xC0#8 ≠ Config.ref.octets.escEnd ∧ 0xC0#8 ≠ Config.ref.octets.escEsc) := by decide

/-- No candidate; a candidate at the last index within the bound; a candidate at the bound. -/
theorem witness_CommitSumsAndStoresWithinBound :
    (d01 .readBody 0#8 false 0#8 0#8).pend = false
      ∧ ((d01 .readBody 3#8 true 0#8 0#8).pend = true ∧ (3#8).toNat < min (4#8).toNat (255#8).toNat)
      ∧ ((d01 .readBody 4#8 true 0#8 0#8).pend = true ∧ min (4#8).toNat (255#8).toNat ≤ (4#8).toNat) := by decide

theorem witness_DecBodyOctetsAreCommitted :
    ((withDecoder (d01 .readBody 0#8 false 0#8 0#8) [0xC1#8]).dec.phase = .readBody
        ∧ 0xC1#8 ≠ Config.ref.octets.endOctet ∧ 0xC1#8 ≠ Config.ref.octets.escOctet)
      ∧ (withDecoder (d01 .bodyEsc 0#8 false 0#8 0#8) [0xDC#8]).dec.phase = .bodyEsc
      ∧ 0xDC#8 = Config.ref.octets.escEnd ∧ 0xDD#8 = Config.ref.octets.escEsc
      ∧ (withDecoder (d01 .bodyEsc 0#8 false 0#8 0#8) [0xDD#8]).rxq = 0xDD#8 :: [] := by decide

theorem witness_AccClearAndAdd : State.reset.encs[1]? = some Encoder.reset ∧ 7 ≤ 7 := by decide

theorem witness_AccFoldAndCmpOnlyPutOut : State.reset.encs[0]? = some Encoder.reset := by decide

theorem witness_DecodeOfEncode :
    Config.ref.valid = true ∧ (Instr.writeIbuf 1 127 0xFF#8).wellFormed Config.ref = true
      ∧ (Instr.encBodyLit 1 0xFF#8).wellFormed Config.ref = true ∧ (Instr.decBeBad 0#8).wellFormed Config.ref = true
      ∧ ({ Config.ref with nEnc := 256 } : Config).valid = true
      ∧ (Instr.encode 255 0#8).wellFormed { Config.ref with nEnc := 256 } = true := by decide

theorem witness_SelectWordsFollowTheClasses : 1 < Config.ref.nEnc := by decide

/-- The clauses of the step, in their order: request, refused request, engine outside BODY, engine in BODY on a written
byte, decoder, link, micro-operation. The clause of a byte never written is `witness_StepRuns_neverWritten`. -/
theorem witness_StepRunsTheDecodedInstruction :
    State.reset.config.valid = true ∧ State.reset.micro = none
      ∧ spells (.host 0x20000000#32) (.ok .cancel) = true ∧ spells (.host 0x20000001#32) (.error .reservedBits) = true
      ∧ ((busyEngine .rel).encs[0]? = some (n01 .rel 0#8 0#8 0#8) ∧ (n01 .rel 0#8 0#8 0#8).phase ≠ .body
        ∧ spells (.enc 0 (encWord .rel 0#8) LockDraw.allOk) (.ok (.encRel 0 .ok)) = true)
      ∧ ((n01 .body 0#8 0#8 0#8).ibuf.read 0 = some 1#8
        ∧ spells (.enc 0 (encWord .body 1#8) LockDraw.allOk) (.ok (.encBodyLit 0 1#8)) = true)
      ∧ ((withDecoder (Decoder.fresh 4#8) [0xC1#8]).rxq = 0xC1#8 :: []
        ∧ spells (.dec (decWord .awaitStart 0xC1#8)) (.ok .decAsStart) = true)
      ∧ spells (.acc .dec 2#2 0#8) (.ok (.accFold .dec)) = true := by decide

/-- Whatever the free byte is, it selects some BODY step. -/
theorem witness_StepRuns_neverWritten :
    (n01 .body 4#8 0#8 0#8).ibuf.read (n01 .body 4#8 0#8 0#8).idx.toNat = none
      ∧ ∃ i, decode Config.ref (.enc 0 (encWord .body (Config.freeByte 0)) LockDraw.allOk) = .ok i := by
  refine ⟨by decide, ?_⟩
  simp only [decode, decodeEnc_encWord Config.ref (show 0 < Config.ref.nEnc by decide), decodeEncPhase]
  split
  · exact ⟨_, rfl⟩
  · split <;> exact ⟨_, rfl⟩

theorem witness_AgentsWithoutAnEnabledStepWait :
    State.reset.config.valid = true ∧ State.reset.micro = none ∧ State.reset.pending = []
      ∧ (State.reset.dec.phase = .idle ∧ (withDecoder (Decoder.fresh 4#8) []).rxq = [])
      ∧ (State.reset.encs[1]? = some Encoder.reset ∧ Encoder.reset.phase = .idle)
      ∧ ((withEngine (n01 .acq 0#8 0#8 0#8) (.held 1)).encs[0]? = some (n01 .acq 0#8 0#8 0#8)
        ∧ LockDraw.allOk.acq = .ok ∧ (withEngine (n01 .acq 0#8 0#8 0#8) (.held 1)).lock ≠ .free) := by decide

/-- A choice and a micro-operation for an engine that does not exist. -/
theorem witness_StepFaultsOnlyWithoutTheEngine :
    step (State.sched State.reset (.enc 2 LockDraw.allOk)) = .fault .noSuchEngine
      ∧ step { State.reset with micro := some { inst := .enc 2, op := 0#2, operand := 0#8 } } = .fault .noSuchEngine :=
  ⟨rfl, rfl⟩

theorem witness_ResetEventRestoresResetValues :
    (busyEngine .body).config.valid = true ∧ (State.sched (busyEngine .body) .reset).micro = none
      ∧ (State.sched (busyEngine .body) .reset).pending = .reset :: [] := by decide

/-! ### Invariants and whole-machine rules -/

/-- A state mid-frame meets the lock invariant. -/
theorem busyEngine_lockInv (E : Encoder) (h : EncPhase.midFrame E.phase = true) :
    (withEngine E (.held 0)).LockInv := by
  refine ⟨fun e F hF => ?_, fun e he => ?_⟩
  · match e with
    | 0 => cases hF; simpa [withEngine] using h
    | 1 => cases hF; simp [withEngine, Encoder.reset, EncPhase.midFrame]
    | _ + 2 => cases hF
  · cases he; exact Nat.zero_lt_two

/-- A step of the engine in BODY, from a state that meets the invariants. -/
theorem witness_StepKeepsLockInvariant :
    (busyEngine .body).LockInv ∧ ∃ t, step (State.sched (busyEngine .body) (.enc 0 LockDraw.allOk)) = .next t :=
  ⟨busyEngine_lockInv _ rfl, _, rfl⟩

theorem witness_StepKeepsEncoderCounts :
    (∀ E ∈ (busyEngine .body).encs, E.CountInv)
      ∧ ∃ t, step (State.sched (busyEngine .body) (.enc 0 LockDraw.allOk)) = .next t := by
  refine ⟨fun E hE => ?_, _, rfl⟩
  rcases List.mem_cons.1 hE with rfl | hE
  · simp [Encoder.CountInv, n01]
  · obtain rfl := List.mem_singleton.1 hE
    simp [Encoder.CountInv, Encoder.reset]

/-- The decoder mid-frame, one octet stored. -/
def midDecoder : State :=
  { withDecoder (d01 .readBody 1#8 true 0xC0#8 1#8) [0x7F#8] with obuf := [(0, 1#8)], pending := [.dec] }

/-- The decoder with `n` at the bound 2, one octet dropped since. -/
def fullDecoder : State :=
  { withDecoder { d01 .readBody 2#8 true 0x2F#8 0xAF#8 with size := 2#8 } [0xDB#8] with
    obuf := [(0, 1#8), (1, 0xC0#8)], pending := [.dec] }

theorem witness_StepKeepsDecoderCounts :
    midDecoder.dec.CountInv ∧ midDecoder.ObufInv ∧ ∃ t, step midDecoder = .next t := by
  refine ⟨by simp [Decoder.CountInv, midDecoder, withDecoder, d01, Decoder.fresh], ⟨by decide, by decide⟩, _, rfl⟩

theorem witness_StepKeepsOctetSpaces : midDecoder.MemInv ∧ ∃ t, step midDecoder = .next t := by
  refine ⟨⟨by decide, by decide⟩, _, rfl⟩

theorem witness_StepKeepsBusyResults : midDecoder.ResultInv ∧ ∃ t, step midDecoder = .next t := by
  refine ⟨⟨by decide, by decide⟩, _, rfl⟩

/-- The premise inside the body with `n` below the bound, and with `n` at the bound and an octet dropped; and a step
into the body from READ_SIZE. -/
theorem witness_StepKeepsRunningSum :
    (∀ s ∈ [midDecoder, fullDecoder], s.micro = none ∧ DecPhase.inBody s.dec.phase = true)
      ∧ midDecoder.dec.HasCommitted midDecoder.obuf [1#8]
      ∧ fullDecoder.dec.HasCommitted fullDecoder.obuf [1#8, 0xC0#8, 0xEE#8]
      ∧ (∃ t, step midDecoder = .next t ∧ DecPhase.inBody t.dec.phase = true)
      ∧ (∃ t, step fullDecoder = .next t ∧ DecPhase.inBody t.dec.phase = true)
      ∧ ∃ s t, s.micro = none ∧ DecPhase.inBody s.dec.phase = false ∧ step s = .next t
          ∧ DecPhase.inBody t.dec.phase = true := by
  refine ⟨by decide, ⟨by decide, by decide, by decide⟩, ⟨by decide, by decide, by decide⟩, ⟨_, rfl, rfl⟩, ⟨_, rfl, rfl⟩, ?_⟩
  exact ⟨State.sched (withDecoder (d01 .readSize 0#8 false 0#8 0#8) [4#8]) .dec, _, rfl, rfl, rfl, rfl⟩

theorem witness_ConfigurationNeverChanges : ∃ t, step midDecoder = .next t := ⟨_, rfl⟩

/-- A recorded fault, REFUSED, and (from the reset registers) a BROKEN lock. -/
theorem witness_StickyUntilReset :
    ∃ s t : State, s.LockInv ∧ step s = .next t ∧ s.pending.head? ≠ some .reset
      ∧ s.faults.mem .cmdBusy = true ∧ s.refused = true ∧ s.lock = .broken := by
  refine ⟨{ State.reset with faults := FaultSet.empty.insert .cmdBusy, refused := true, lock := .broken }, _,
    ⟨fun e F hF => ?_, fun e he => ?_⟩, rfl, by decide, rfl, rfl, rfl⟩
  · match e with
    | 0 => cases hF; simp [Encoder.reset, EncPhase.midFrame]
    | 1 => cases hF; simp [Encoder.reset, EncPhase.midFrame]
    | _ + 2 => cases hF
  · cases he

theorem witness_EmitOnlyUnderTheLock :
    (busyEngine .body).LockInv ∧ (∃ t, step (State.sched (busyEngine .body) (.enc 0 LockDraw.allOk)) = .next t)
      ∧ (State.sched (busyEngine .body) (.enc 0 LockDraw.allOk)).pending.head? ≠ some .reset :=
  ⟨busyEngine_lockInv _ rfl, ⟨_, rfl⟩, by decide⟩

theorem witness_ReceiveQueueIsFifo : (∃ t, step midDecoder = .next t) ∧ midDecoder.pending.head? ≠ some .reset :=
  ⟨⟨_, rfl⟩, by decide⟩

/-! ### Frames -/

theorem witness_EncoderStepFrame :
    (Instr.encChk 0).encEngine? = some 0 ∧ (∃ t, exec (.encChk 0) (busyEngine .chk) = .next t)
      ∧ (busyEngine .chk).encs[0]? = some (n01 .chk 0#8 0#8 0#8) := ⟨rfl, ⟨_, rfl⟩, rfl⟩

theorem witness_DecoderStepFrame :
    (Instr.decRbData 0x7F#8).format = .decSel ∧ ∃ t, exec (.decRbData 0x7F#8) midDecoder = .next t := ⟨rfl, _, rfl⟩

theorem witness_HostRequestFrame :
    (Instr.writeIbuf 0 127 1#8).format = .hostReq ∧ (∃ t, exec (.writeIbuf 0 127 1#8) State.reset = .next t)
      ∧ (∀ v, Instr.writeIbuf 0 127 1#8 ≠ .writeIbuf 1 127 v) ∧ State.reset.encs[1]? = some Encoder.reset :=
  ⟨rfl, ⟨_, rfl⟩, (fun _ h => nomatch h), rfl⟩

theorem witness_AccumulatorFrame :
    (Instr.accAdd (.enc 1) 1#8).format = .accOp ∧ ∃ t, exec (.accAdd (.enc 1) 1#8) State.reset = .next t := ⟨rfl, _, rfl⟩

/-! ### The codec -/

/-- The payload of V-N01. -/
def p01 : List Byte := [0x01#8, 0xC0#8, 0xDB#8, 0x7F#8]

/-- Engine 0 has sent END, START, SIZE and the first byte, after another engine's octets. -/
theorem witness_FrameIsContiguousUnderEveryInterleaving :
    ∃ s t : State, s.LockInv ∧ s.micro = none ∧ s.Sending 0 p01 [0xAA#8] ∧ s.pending.head? ≠ some .reset
      ∧ step s = .next t := by
  refine ⟨{ withEngine (n01 .body 1#8 0#8 1#8) (.held 0) with
      txlog := [0xAA#8, 0xC0#8, 0xC1#8, 0x04#8, 0x01#8], pending := [.enc 0 LockDraw.allOk] }, _,
    busyEngine_lockInv (n01 .body 1#8 0#8 1#8) rfl, rfl, ⟨rfl, n01 .body 1#8 0#8 1#8, rfl, ?_, by decide⟩, by decide, rfl⟩
  exact ⟨rfl, by decide, by decide, by decide, by decide, by decide, by decide, by decide, (by intro h; cases h), by decide⟩

theorem witness_EncoderEmitsTheFrame :
    (withEngine (n01 .acq 0#8 0#8 0#8) .free).config.valid = true ∧ (withEngine (n01 .acq 0#8 0#8 0#8) .free).micro = none
      ∧ (withEngine (n01 .acq 0#8 0#8 0#8) .free).lock = .free
      ∧ (withEngine (n01 .acq 0#8 0#8 0#8) .free).encs[0]? = some (n01 .acq 0#8 0#8 0#8)
      ∧ (n01 .acq 0#8 0#8 0#8).phase = .acq ∧ p01.length ≤ 128 ∧ (n01 .acq 0#8 0#8 0#8).len = BitVec.ofNat 8 p01.length
      ∧ ∀ k, k < p01.length → (n01 .acq 0#8 0#8 0#8).ibuf.read k = p01[k]? := by decide

/-- The noise of V-D11, a right and a wrong checksum octet. -/
theorem witness_DecoderVerdictOnAnyBody :
    ∃ s : State, s.config.valid = true ∧ s.micro = none ∧ s.dec.phase = .awaitStart ∧ s.dec.maxlen = 255#8
      ∧ s.ctl.startOctet ∉ [0x00#8, 0xC0#8, 0xDB#8, 0xFF#8] ∧ 0x1B#8 ≠ s.ctl.endOctet ∧ 0x1B#8 ≠ s.ctl.escOctet
      ∧ s.rxq = [0x00#8, 0xC0#8, 0xDB#8, 0xFF#8] ++ [s.ctl.startOctet, 0x04#8] ++ stuffAll s.ctl p01
          ++ [0x1B#8, s.ctl.endOctet] ++ [0x55#8]
      ∧ 0x1B#8 = chk p01 ∧ 0x1C#8 ≠ chk p01 ∧ 0x1C#8 ≠ s.ctl.endOctet ∧ 0x1C#8 ≠ s.ctl.escOctet :=
  ⟨withDecoder (Decoder.fresh 255#8) [0x00#8, 0xC0#8, 0xDB#8, 0xFF#8, 0xC1#8, 0x04#8, 0x01#8, 0xDB#8, 0xDC#8, 0xDB#8,
    0xDD#8, 0x7F#8, 0x1B#8, 0xC0#8, 0x55#8], by decide⟩

/-- V-N01's frame, with an octet after it. -/
def f01 : List Byte :=
  [0xC0#8, 0xC1#8, 0x04#8, 0x01#8, 0xDB#8, 0xDC#8, 0xDB#8, 0xDD#8, 0x7F#8, 0x1B#8, 0xC0#8, 0x55#8]

theorem witness_DecoderRoundTrip :
    ∃ s : State, s.config.valid = true ∧ s.micro = none ∧ s.dec.phase = .awaitStart ∧ s.dec.maxlen = 4#8 ∧ p01.length ≤ 128
      ∧ p01.length ≤ (4#8).toNat ∧ s.rxq = frame s.ctl p01 ++ [0x55#8] :=
  ⟨withDecoder (Decoder.fresh 4#8) f01, by decide⟩

theorem witness_DecoderTruncates :
    ∃ s : State, s.config.valid = true ∧ s.micro = none ∧ s.dec.phase = .awaitStart ∧ s.dec.maxlen = 3#8 ∧ p01.length ≤ 128
      ∧ (3#8).toNat < p01.length ∧ s.rxq = frame s.ctl p01 ++ [0x55#8] :=
  ⟨withDecoder (Decoder.fresh 3#8) f01, by decide⟩

theorem witness_LoopbackRoundTripFromReset :
    Config.ref.valid = true ∧ 1 < Config.ref.nEnc ∧ (List.replicate 128 0xC0#8).length ≤ 128
      ∧ (List.replicate 128 0xC0#8).length ≤ (128#8).toNat := by
  rw [List.length_replicate]; decide

theorem witness_EscapingIsCorrect :
    Config.ref.octets.valid = true ∧ p01.length ≤ 128 ∧ (frame Config.ref.octets p01)[4]? = some Config.ref.octets.escOctet := by
  decide

theorem witness_FrameLength :
    (List.replicate 128 0xC0#8 : List Byte).length = 128
      ∧ ∀ c ∈ (List.replicate 128 0xC0#8 : List Byte), c = Config.ref.octets.endOctet ∨ c = Config.ref.octets.escOctet :=
  ⟨List.length_replicate, fun _ h => .inl (List.eq_of_mem_replicate h)⟩

theorem witness_ChecksumSeesLowBitFlipsOnly : 6 < 7 := by decide

end Sys2Proof.Tests
end

/-! The step, agent by agent: what it equals on each choice, and that it answers a next state unless the choice or the
waiting micro-operation names an engine that does not exist (00_scope.md R6, R7). -/
namespace Sys2Proof.Machine

variable {s u : State} {e : Nat} {E : Encoder} {d : LockDraw} {i : Instr} {rest : List Event}

/-! ## The step on each kind of choice -/

theorem step_of_micro {m : MicroOp} (hv : s.config.valid = true) (hm : s.micro = some m) :
    step s = { s with micro := none }.runFetched (.acc m.inst m.op m.operand) := by
  simp [step_eq_advance hv, State.advance, hm]

theorem step_of_pending_nil (hv : s.config.valid = true) (hm : s.micro = none) (hp : s.pending = []) :
    step s = .next s := by
  simp [step_eq_advance hv, State.advance, hm, hp]

theorem step_of_pending_cons {ev : Event} (hv : s.config.valid = true) (hm : s.micro = none)
    (hp : s.pending = ev :: rest) : step s = { s with pending := rest }.move ev := by
  simp [step_eq_advance hv, State.advance, hm, hp]

/-! ## The move of an engine -/

theorem State.decode_encWord (hE : u.encs[e]? = some E) (ph : EncPhase) (b : Byte) (d : LockDraw) :
    decode u.config (.enc e (encWord ph b) d) = decodeEncPhase u.config e b d ph :=
  decodeEnc_encWord u.config (State.lt_of_enc hE) ph b d

theorem State.move_enc_of_ne_body (hE : u.encs[e]? = some E) (hp : E.phase ≠ .body) :
    u.move (.enc e d) = u.runFetched (.enc e (encWord E.phase 0#8) d) := by
  simp [State.move, State.fetchEnc_of_ne_body hE hp]

theorem State.move_enc_of_written {b : Byte} (hE : u.encs[e]? = some E) (hp : E.phase = .body)
    (hb : E.ibuf.read E.idx.toNat = some b) :
    u.move (.enc e d) = u.runFetched (.enc e (encWord .body b) d) := by
  simp [State.move, State.fetchEnc_body hE hp, State.payloadByte, hb]

theorem State.move_enc_of_unwritten (hE : u.encs[e]? = some E) (hp : E.phase = .body)
    (hb : E.ibuf.read E.idx.toNat = none) :
    u.move (.enc e d)
      = { u with draws := u.draws + 1 }.runFetched (.enc e (encWord .body (Config.freeByte u.draws)) d) := by
  simp [State.move, State.fetchEnc_body hE hp, State.payloadByte, hb]

theorem State.move_enc_of_idle (hE : u.encs[e]? = some E) (hp : E.phase = .idle) :
    u.move (.enc e d) = .next u := by
  have hdec : decode u.config (.enc e (encWord E.phase 0#8) d) = .error .noStep := by
    rw [State.decode_encWord hE, hp]; rfl
  rw [State.move_enc_of_ne_body hE (by simp [hp]), State.runFetched_error hdec]
  rfl

/-- R121: the answer OK is only possible on a FREE lock. -/
theorem State.move_enc_of_lock_taken (hE : u.encs[e]? = some E) (hp : E.phase = .acq) (hd : d.acq = .ok)
    (hl : u.lock ≠ .free) : u.move (.enc e d) = .next u := by
  have hdec : decode u.config (.enc e (encWord E.phase 0#8) d) = .ok (.encAcq e .ok) := by
    rw [State.decode_encWord hE, hp, ← hd]; rfl
  have hacq : u.lock.acquire e = none := (Lock.acquire_eq_none_iff ..).2 hl
  rw [State.move_enc_of_ne_body hE (by simp [hp]), State.runFetched_ok hdec]
  simp [exec, execEncAcq, State.atPhase_eq hE hp, hacq]

/-! ## The move of the decoder -/

theorem State.move_dec_of_nil (hq : u.rxq = []) : u.move .dec = .next u := by
  simp [State.move, State.fetchDec, hq]

theorem State.move_dec_of_cons {c : Byte} {q : List Byte} (hq : u.rxq = c :: q) :
    u.move .dec = u.runFetched (.dec (decWord u.dec.phase c)) := by
  simp [State.move, State.fetchDec, hq]

theorem State.move_dec_of_idle (hp : u.dec.phase = .idle) : u.move .dec = .next u := by
  cases hq : u.rxq with
  | nil => exact State.move_dec_of_nil hq
  | cons c q =>
    have hdec : decode u.config (.dec (decWord u.dec.phase c)) = .error .noStep := by
      rw [hp]; exact decodeDec_decWord ..
    rw [State.move_dec_of_cons hq, State.runFetched_error hdec]
    rfl

/-! ## The step runs what the word decodes to; an agent without an enabled step waits -/

/-- Settles O30: one equation per kind of choice, then `exec` of what the presented word decodes to. -/
theorem stepRunsTheDecodedInstruction : Obligations.StepRunsTheDecodedInstruction := by
  intro s i hv
  refine ⟨?host, ?refused, ?enc, ?written, ?unwritten, ?dec, ?link, ?micro⟩
  case host =>
    intro w rest hm hp hi
    rw [step_of_pending_cons hv hm hp]
    exact State.runFetched_ok hi
  case refused =>
    intro w rest r hm hp hr
    rw [step_of_pending_cons hv hm hp]
    exact State.runFetched_error hr
  case enc =>
    intro e d rest E hm hp hE hph hi
    rw [step_of_pending_cons hv hm hp, State.move_enc_of_ne_body (u := { s with pending := rest }) hE hph]
    exact State.runFetched_ok hi
  case written =>
    intro e d rest E b hm hp hE hph hb hi
    rw [step_of_pending_cons hv hm hp, State.move_enc_of_written (u := { s with pending := rest }) hE hph hb]
    exact State.runFetched_ok hi
  case unwritten =>
    intro e d rest E hm hp hE hph hb hi
    rw [step_of_pending_cons hv hm hp, State.move_enc_of_unwritten (u := { s with pending := rest }) hE hph hb]
    exact State.runFetched_ok hi
  case dec =>
    intro rest c q hm hp hq hi
    rw [step_of_pending_cons hv hm hp, State.move_dec_of_cons (u := { s with pending := rest }) hq]
    exact State.runFetched_ok hi
  case link =>
    intro c rest hm hp
    exact step_of_pending_cons hv hm hp
  case micro =>
    intro m hm hi
    rw [step_of_micro hv hm]
    exact State.runFetched_ok hi

/-- Settles O31: the idle agents' words decode to no step, and ENC.ACQ with the answer OK waits on a taken lock. -/
theorem agentsWithoutAnEnabledStepWait : Obligations.AgentsWithoutAnEnabledStepWait := by
  intro s hv hm
  refine ⟨step_of_pending_nil hv hm, ?dec, ?idle, ?acq⟩
  case dec =>
    intro rest hp hwait
    rw [step_of_pending_cons hv hm hp]
    rcases hwait with hidle | hq
    · exact State.move_dec_of_idle hidle
    · exact State.move_dec_of_nil hq
  case idle =>
    intro e d rest E hp hE hph
    rw [step_of_pending_cons hv hm hp]
    exact State.move_enc_of_idle hE hph
  case acq =>
    intro e d rest E hp hE hph hd hl
    rw [step_of_pending_cons hv hm hp]
    exact State.move_enc_of_lock_taken hE hph hd hl

/-! ## A selected instruction answers a next state -/

theorem State.forEnc_total {k : Encoder → Outcome} (hk : ∀ E, ∃ t, k E = .next t) : ∃ t, s.forEnc e k = .next t := by
  cases hE : s.encs[e]? with
  | none => exact ⟨_, State.forEnc_refused (List.getElem?_eq_none_iff.1 hE)⟩
  | some E => rw [State.forEnc_eq hE]; exact hk E

theorem State.atAcc_eq {a : AccInst} {acc : Byte} {k : Byte → State} (ha : s.acc? a = some acc) :
    s.atAcc a k = .next (k acc) := by simp [State.atAcc, ha]

/-- Every host request answers a next state, in every state: refusals and duty faults are recorded, not raised. -/
theorem exec_req_total (hi : i.format = .hostReq) : ∃ t, exec i s = .next t := by
  cases i <;> simp only [Instr.format, reduceCtorEq] at hi
  case encode e len =>
    refine State.forEnc_total fun E => ?_
    split <;> exact ⟨_, rfl⟩
  case decode m =>
    simp only [exec, execDecode]
    split <;> exact ⟨_, rfl⟩
  case cancel =>
    simp only [exec, execCancel]
    split <;> exact ⟨_, rfl⟩
  case writeIbuf e j v =>
    simp only [exec, execWriteIbuf]
    split
    · refine State.forEnc_total fun E => ?_
      split <;> exact ⟨_, rfl⟩
    · exact ⟨_, rfl⟩
  case readObuf j =>
    simp only [exec, execReadObuf]
    split
    · split
      · exact ⟨_, rfl⟩
      · split <;> exact ⟨_, rfl⟩
    · exact ⟨_, rfl⟩
  case readStatusEnc e => exact State.forEnc_total fun E => ⟨_, rfl⟩
  case readStatusDec => exact ⟨_, rfl⟩
  case reservedOp7 => exact ⟨_, rfl⟩
  case reservedOp8ToF => exact ⟨_, rfl⟩

/-- The row that an engine's phase and payload byte select (R89) is enabled. -/
theorem exec_decodeEncPhase {b : Byte} (hE : s.encs[e]? = some E) (hb : E.phase = .body → E.holds b = true)
    (h : decodeEncPhase s.config e b d E.phase = .ok i) : ∃ t, exec i s = .next t := by
  cases hp : E.phase <;> rw [hp] at h <;> simp only [decodeEncPhase] at h
  case idle => cases h
  case acq =>
    cases h
    simp only [exec, execEncAcq, State.atPhase_eq hE hp]
    split
    · split <;> exact ⟨_, rfl⟩
    · exact ⟨_, rfl⟩
  case flush => cases h; exact ⟨_, State.atPhase_eq hE hp⟩
  case start => cases h; exact ⟨_, State.atPhase_eq hE hp⟩
  case size => cases h; exact ⟨_, State.atPhase_eq hE hp⟩
  case body =>
    have hb := hb hp
    split at h
    · next hc => cases h; subst hc; exact ⟨_, State.atByte_eq hE hp hb⟩
    · next hEnd =>
      split at h
      · next hc => cases h; subst hc; exact ⟨_, State.atByte_eq hE hp hb⟩
      · next hEsc =>
        cases h
        exact ⟨_, (State.atByte_eq hE hp hb).trans (if_neg (not_or.2 ⟨hEnd, hEsc⟩))⟩
  case esc2 => cases h; exact ⟨_, State.atPhase_eq hE hp⟩
  case chk => cases h; exact ⟨_, State.atPhase_eq hE hp⟩
  case endMark => cases h; exact ⟨_, State.atPhase_eq hE hp⟩
  case rel => cases h; exact ⟨_, State.atPhase_eq hE hp⟩

/-- The row that the decoder's phase and the received octet select (R88) is enabled. -/
theorem exec_decodeDecPhase {c : Byte} {q : List Byte} (hq : s.rxq = c :: q)
    (h : decodeDecPhase s.config c s.dec.phase = .ok i) : ∃ t, exec i s = .next t := by
  cases hp : s.dec.phase <;> rw [hp] at h <;> simp only [decodeDecPhase] at h
  case idle => cases h
  case awaitStart =>
    split at h
    · next hc => cases h; subst hc; exact ⟨_, State.onOctet_eq hp hq⟩
    · next hc => cases h; exact ⟨_, (State.onOctet_eq hp hq).trans (if_neg hc)⟩
  case readSize => cases h; exact ⟨_, State.onOctet_eq hp hq⟩
  case readBody =>
    split at h
    · next hc =>
      cases h; subst hc
      simp only [exec, execDecRbEnd, State.config_octets] at hq ⊢
      rw [State.onOctet_eq hp hq]
      split <;> exact ⟨_, rfl⟩
    · next hEnd =>
      split at h
      · next hc => cases h; subst hc; exact ⟨_, State.onOctet_eq hp hq⟩
      · next hEsc =>
        cases h
        exact ⟨_, (State.onOctet_eq hp hq).trans (if_neg (not_or.2 ⟨hEnd, hEsc⟩))⟩
  case bodyEsc =>
    split at h
    · next hc => cases h; subst hc; exact ⟨_, State.onOctet_eq hp hq⟩
    · next hSubEnd =>
      split at h
      · next hc => cases h; subst hc; exact ⟨_, State.onOctet_eq hp hq⟩
      · next hSubEsc =>
        cases h
        exact ⟨_, (State.onOctet_eq hp hq).trans (if_neg (not_or.2 ⟨hSubEnd, hSubEsc⟩))⟩

theorem State.acc?_of_wellFormed {a : AccInst} (ha : a.wellFormed s.config = true) : ∃ acc, s.acc? a = some acc := by
  cases a with
  | dec => exact ⟨_, rfl⟩
  | enc e =>
    have he : e < s.encs.length := of_decide_eq_true ha
    exact ⟨s.encs[e].acc, by simp [State.acc?, List.getElem?_eq_getElem he]⟩

/-- A micro-operation at an existing accumulator (R91) is enabled. -/
theorem exec_decodeAcc {a : AccInst} {op : BitVec 2} {x : Byte} (h : decodeAcc s.config a op x = .ok i) :
    ∃ t, exec i s = .next t := by
  unfold decodeAcc at h
  split at h
  · next ha =>
    obtain ⟨acc, hacc⟩ := State.acc?_of_wellFormed ha
    split at h <;> cases h <;> exact ⟨_, State.atAcc_eq hacc⟩
  · cases h

/-! ## The words that decode to nothing -/

theorem decodeEncPhase_error {p : Config} {b : Byte} {ph : EncPhase} {r : Reject}
    (h : decodeEncPhase p e b d ph = .error r) : r = .noStep := by
  cases ph <;> simp only [decodeEncPhase] at h
  case idle => cases h; rfl
  case body =>
    split at h
    · cases h
    · split at h <;> cases h
  all_goals cases h

theorem decodeAcc_error {p : Config} {a : AccInst} {op : BitVec 2} {x : Byte} {r : Reject}
    (h : decodeAcc p a op x = .error r) : ∃ e, a = .enc e ∧ p.nEnc ≤ e := by
  unfold decodeAcc at h
  split at h
  · split at h <;> cases h
  · next ha =>
    cases a with
    | enc e => exact ⟨e, rfl, by simpa [AccInst.wellFormed] using ha⟩
    | dec => exact absurd rfl ha

/-! ## Every existing agent's move answers a next state -/

/-- An existing engine presents its phase, and in BODY a byte that its buffer can hold. -/
theorem State.fetchEnc_holds (hE : u.encs[e]? = some E) (d : LockDraw) :
    ∃ b k, u.fetchEnc e d = (.enc e (encWord E.phase b) d, { u with draws := k })
      ∧ (E.phase = .body → E.holds b = true) := by
  by_cases hp : E.phase = .body
  · obtain ⟨hb, k, hk⟩ := State.payloadByte_cases (s := u) E
    exact ⟨_, k, by rw [State.fetchEnc_body hE hp, hp, hk], fun _ => hb⟩
  · exact ⟨_, u.draws, State.fetchEnc_of_ne_body hE hp d, fun h => absurd h hp⟩

theorem State.move_enc_total (hE : u.encs[e]? = some E) (d : LockDraw) : ∃ t, u.move (.enc e d) = .next t := by
  obtain ⟨b, k, hf, hb⟩ := State.fetchEnc_holds hE d
  have hword := State.decode_encWord (u := { u with draws := k }) hE E.phase b d
  simp only [State.move, hf]
  cases h : decodeEncPhase u.config e b d E.phase with
  | ok i =>
    rw [State.runFetched_ok (hword.trans h)]
    exact exec_decodeEncPhase (s := { u with draws := k }) hE hb h
  | error r =>
    obtain rfl := decodeEncPhase_error h
    exact ⟨_, State.runFetched_error (hword.trans h)⟩

theorem State.move_dec_total (u : State) : ∃ t, u.move .dec = .next t := by
  cases hq : u.rxq with
  | nil => exact ⟨_, State.move_dec_of_nil hq⟩
  | cons c q =>
    have hword : decode u.config (.dec (decWord u.dec.phase c)) = _ := decodeDec_decWord u.config u.dec.phase c
    rw [State.move_dec_of_cons hq]
    cases h : decodeDecPhase u.config c u.dec.phase with
    | ok i => rw [State.runFetched_ok (hword.trans h)]; exact exec_decodeDecPhase hq h
    | error r => exact ⟨_, State.runFetched_error (hword.trans h)⟩

theorem State.move_host_total (u : State) (w : Word) : ∃ t, u.move (.host w) = .next t := by
  simp only [State.move]
  cases h : decode u.config (.host w) with
  | ok i => rw [State.runFetched_ok h]; exact exec_req_total (decodeHost_format h)
  | error r => exact ⟨_, State.runFetched_error h⟩

theorem State.move_enc_fault (he : u.encs.length ≤ e) (d : LockDraw) : u.move (.enc e d) = .fault .noSuchEngine := by
  have hE : u.encs[e]? = none := List.getElem?_eq_none he
  have hdec : decode u.config (.enc e (encWord .idle 0#8) d) = .error .noSuchEngine := if_neg (Nat.not_lt.2 he)
  simp only [State.move, State.fetchEnc, hE]
  exact State.runFetched_error hdec

theorem State.move_outcome (u : State) (ev : Event) :
    (∃ t, u.move ev = .next t)
      ∨ u.move ev = .fault .noSuchEngine ∧ ∃ e d, ev = .enc e d ∧ u.encs.length ≤ e := by
  cases ev with
  | host w => exact .inl (u.move_host_total w)
  | enc e d =>
    by_cases he : e < u.encs.length
    · exact .inl (State.move_enc_total (List.getElem?_eq_getElem he) d)
    · exact .inr ⟨State.move_enc_fault (Nat.not_lt.1 he) d, e, d, rfl, Nat.not_lt.1 he⟩
  | dec => exact .inl u.move_dec_total
  | link c => exact .inl ⟨_, rfl⟩
  | reset => exact .inl ⟨_, rfl⟩

theorem State.runFetched_acc_outcome (u : State) (a : AccInst) (op : BitVec 2) (x : Byte) :
    (∃ t, u.runFetched (.acc a op x) = .next t)
      ∨ u.runFetched (.acc a op x) = .fault .noSuchEngine ∧ ∃ e, a = .enc e ∧ u.encs.length ≤ e := by
  cases h : decode u.config (.acc a op x) with
  | ok i => rw [State.runFetched_ok h]; exact .inl (exec_decodeAcc h)
  | error r => exact .inr ⟨State.runFetched_error h, decodeAcc_error h⟩

/-- Everything a step of a legal configuration can answer: a next state, or the model's fault on an engine that does
not exist (entry 12). -/
theorem step_outcome (hv : s.config.valid = true) :
    (∃ t, step s = .next t)
      ∨ step s = .fault .noSuchEngine
        ∧ ((∃ e d rest, s.micro = none ∧ s.pending = .enc e d :: rest ∧ s.encs.length ≤ e)
          ∨ ∃ m e, s.micro = some m ∧ m.inst = .enc e ∧ s.encs.length ≤ e) := by
  cases hm : s.micro with
  | some m =>
    rw [step_of_micro hv hm]
    refine (State.runFetched_acc_outcome _ m.inst m.op m.operand).imp_right ?_
    rintro ⟨hf, e, ha, he⟩
    exact ⟨hf, .inr ⟨m, e, rfl, ha, he⟩⟩
  | none =>
    cases hp : s.pending with
    | nil => exact .inl ⟨s, step_of_pending_nil hv hm hp⟩
    | cons ev rest =>
      rw [step_of_pending_cons hv hm hp]
      refine (State.move_outcome _ ev).imp_right ?_
      rintro ⟨hf, e, d, rfl, he⟩
      exact ⟨hf, .inl ⟨e, d, rest, rfl, rfl, he⟩⟩

/-- Settles O33: a step of a legal configuration answers a next state unless it names an engine that does not exist, and
an illegal configuration is refused. -/
theorem stepFaultsOnlyWithoutTheEngine : Obligations.StepFaultsOnlyWithoutTheEngine := by
  intro s f h
  by_cases hv : s.config.valid = true
  · rcases step_outcome hv with ⟨t, ht⟩ | ⟨hf, hnames⟩
    · rw [ht] at h; cases h
    · rw [hf] at h; cases h; exact ⟨rfl, hnames⟩
  · simp [step, hv] at h

end Sys2Proof.Machine

/-! What a step can change, component by component (the engines with the lock, the decoder with OBUF, the sticky
records), and the invariants of 10_state.md R46 that follow from it. -/
namespace Sys2Proof.Machine

/-! ## One step, component by component -/

/-- What engine `e` and the lock can become: a move of the engine, a request on an idle engine, or a bare
micro-operation at its accumulator. -/
inductive EngineChange (o : ControlOctets) (e : Nat) : Lock → Encoder → Lock → Encoder → Prop
  | move {l E l' E' out} (h : EncMove o e l E l' E' out) : EngineChange o e l E l' E'
  | tooLarge {l E} (h : E.phase = .idle) :
      EngineChange o e l E l { E with status := .payloadTooLarge, done := true }
  | encode {l E len} (h : E.phase = .idle) (hl : len.toNat ≤ 128) :
      EngineChange o e l E l { E with
        phase := .acq, len := len, idx := 0#8, sub := 0#8, acc := 0#8, status := .none, done := false }
  | writeIbuf {l E j v} (h : E.phase = .idle) (hj : j < 128) :
      EngineChange o e l E l { E with ibuf := E.ibuf.write j v }
  | acc {l E} (v : Byte) : EngineChange o e l E l { E with acc := v }

/-- What the decoder and OBUF can become, where `w` is the waiting micro-operation: a move of the decoder, DECODE,
CANCEL, or a bare micro-operation at its accumulator. -/
inductive DecoderChange (o : ControlOctets) (w : Option MicroOp) : Decoder → Memory → Decoder → Memory → Prop
  | same {D m} : DecoderChange o w D m D m
  | move {c D m D' m'} (h : DecMove o c D m D' m') : DecoderChange o w D m D' m'
  | decode {D m} (maxlen : Byte) (h : D.phase = .idle) : DecoderChange o w D m (Decoder.fresh maxlen) m
  | cancel {D m} (h : D.phase ≠ .idle) : DecoderChange o w D m (D.finish .cancelled) m
  | acc {D m} (v : Byte) (h : w ≠ none) : DecoderChange o w D m { D with acc := v } m

/-- What a step that is not the reset event can change. -/
structure StepChange (s t : State) : Prop where
  ctl : t.ctl = s.ctl
  engines : (t.lock = s.lock ∧ t.encs = s.encs)
    ∨ ∃ e E E', s.encs[e]? = some E ∧ EngineChange s.ctl e s.lock E t.lock E' ∧ t.encs = s.encs.set e E'
  decoder : DecoderChange s.ctl s.micro s.dec s.obuf t.dec t.obuf
  faults : ∀ r, s.faults.mem r = true → t.faults.mem r = true
  refused : s.refused = true → t.refused = true
  micro : s.micro = none → t.micro = none

variable {s t u : State} {i : Instr} {o : ControlOctets} {e : Nat} {l l' : Lock} {E E' : Encoder}
  {D D' : Decoder} {m m' : Memory} {w : Option MicroOp}

theorem StepChange.refuse (u : State) : StepChange u u.refuse :=
  ⟨rfl, .inl ⟨rfl, rfl⟩, .same, fun _ => id, fun _ => rfl, id⟩

theorem ReqMove.stepChange (h : ReqMove i u t) : StepChange u t := by
  cases h with
  | refused => exact .refuse u
  | fault r => exact ⟨rfl, .inl ⟨rfl, rfl⟩, .same, fun q => FaultSet.mem_insert_of_mem _ r q, id, id⟩
  | tooLarge _ hE hp => exact ⟨rfl, .inr ⟨_, _, _, hE, .tooLarge hp, rfl⟩, .same, fun _ => id, id, id⟩
  | encode _ hE hp hl => exact ⟨rfl, .inr ⟨_, _, _, hE, .encode hp hl, rfl⟩, .same, fun _ => id, id, id⟩
  | decode _ hp => exact ⟨rfl, .inl ⟨rfl, rfl⟩, .decode _ hp, fun _ => id, id, id⟩
  | cancel _ hp => exact ⟨rfl, .inl ⟨rfl, rfl⟩, .cancel hp, fun _ => id, id, id⟩
  | writeIbuf _ hE hp hj => exact ⟨rfl, .inr ⟨_, _, _, hE, .writeIbuf hp hj, rfl⟩, .same, fun _ => id, id, id⟩
  | answer => exact ⟨rfl, .inl ⟨rfl, rfl⟩, .same, fun _ => id, id, id⟩

theorem exec_chosen_stepChange {ev : Event} (h : exec i u = .next t) (hc : Chooses ev i) : StepChange u t := by
  cases hc with
  | host hi => exact (exec_req_next hi h).stepChange
  | enc hi =>
    obtain ⟨E, l, E', out, hE, hmove, rfl⟩ := exec_enc_next hi h
    exact ⟨rfl, .inr ⟨_, _, _, hE, .move hmove, rfl⟩, .same, fun _ => id, id, id⟩
  | dec hi =>
    obtain ⟨c, rest, D', m', _, hmove, rfl⟩ := exec_dec_next hi h
    exact ⟨rfl, .inl ⟨rfl, rfl⟩, .move hmove, fun _ => id, id, id⟩
  | link c => cases h; exact ⟨rfl, .inl ⟨rfl, rfl⟩, .same, fun _ => id, id, id⟩

theorem exec_micro_stepChange {dr : Nat} {pe : List Event} (hi : i.format = .accOp) (hm : s.micro ≠ none)
    (h : exec i { s with micro := none, draws := dr, pending := pe } = .next t) : StepChange s t := by
  obtain ⟨out, rfl⟩ | ⟨v, rfl⟩ | ⟨e, E, v, hE, rfl⟩ := exec_acc_next hi h
  · exact ⟨rfl, .inl ⟨rfl, rfl⟩, .same, fun _ => id, id, fun _ => rfl⟩
  · exact ⟨rfl, .inl ⟨rfl, rfl⟩, .acc v hm, fun _ => id, id, fun _ => rfl⟩
  · exact ⟨rfl, .inr ⟨_, _, _, hE, .acc v, rfl⟩, .same, fun _ => id, id, fun _ => rfl⟩

/-- What the step consumes (a choice, draws) is part of no component. -/
theorem StepChange.of_consumed {dr : Nat} {pe : List Event} (hm : s.micro = none)
    (h : StepChange { s with micro := none, draws := dr, pending := pe } t) : StepChange s t :=
  ⟨h.ctl, h.engines, hm ▸ h.decoder, h.faults, h.refused, fun _ => h.micro rfl⟩

/-- A step is the reset event, or changes at most what `StepChange` says. -/
theorem step_change (h : step s = .next t) :
    (s.pending.head? = some .reset ∧ ∃ dr pe, t = { State.resetWith s.config with draws := dr, pending := pe })
      ∨ StepChange s t := by
  obtain ⟨_, u, ⟨dr, pe, rfl⟩, ⟨hm, i, hi, h⟩ | ⟨hm, rfl⟩ | ⟨ev, rest, hm, hp, rfl | ⟨rfl, rfl⟩ | ⟨i, h, hc⟩⟩⟩ :=
    step_moves h
  · exact .inr (exec_micro_stepChange hi hm h)
  · exact .inr ⟨rfl, .inl ⟨rfl, rfl⟩, .same, fun _ => id, id, fun _ => rfl⟩
  · exact .inr (.of_consumed hm (.refuse _))
  · exact .inl ⟨by rw [hp]; rfl, dr, pe, rfl⟩
  · exact .inr (.of_consumed hm (exec_chosen_stepChange h hc))

/-- A property of `Encoder.reset` is one of every engine after reset. -/
theorem State.resetWith_engines {P : Encoder → Prop} (p : Config) (h : P Encoder.reset) :
    ∀ E ∈ (State.resetWith p).encs, P E := fun _ hE => List.eq_of_mem_replicate hE ▸ h

/-! ## The lock and the phases -/

theorem Encoder.midFrame_afterByte (E : Encoder) : EncPhase.midFrame E.afterByte = true := by
  unfold Encoder.afterByte
  split <;> rfl

/-- The lock and "mid-frame" change together: both when the engine takes a FREE lock or gives its own back, else
neither. -/
theorem EncMove.lock_cases {out : List Byte} (h : EncMove o e l E l' E' out) :
    (l' = l ∧ EncPhase.midFrame E'.phase = EncPhase.midFrame E.phase)
      ∨ (l = .free ∧ l' = .held e ∧ EncPhase.midFrame E'.phase = true)
      ∨ (EncPhase.midFrame E.phase = true ∧ EncPhase.midFrame E'.phase = false ∧ ∃ r, l' = Lock.afterRelease r) := by
  cases h with
  | acqOk h => exact .inr (.inl ⟨rfl, rfl, rfl⟩)
  | rel r h => exact .inr (.inr ⟨by rw [h]; rfl, rfl, r, rfl⟩)
  | size h =>
    refine .inl ⟨rfl, ?_⟩
    rw [h]
    dsimp only
    split <;> rfl
  | lit h | esc2 h => exact .inl ⟨rfl, by rw [h]; exact Encoder.midFrame_afterByte _⟩
  | acqWait => exact .inl ⟨rfl, rfl⟩
  | acqFail h | flush h | start h | escEnd h | escEsc h | chk h | endMark h => exact .inl ⟨rfl, by rw [h]; rfl⟩

theorem EngineChange.lock_cases (h : EngineChange o e l E l' E') :
    (l' = l ∧ EncPhase.midFrame E'.phase = EncPhase.midFrame E.phase)
      ∨ (l = .free ∧ l' = .held e ∧ EncPhase.midFrame E'.phase = true)
      ∨ (EncPhase.midFrame E.phase = true ∧ EncPhase.midFrame E'.phase = false ∧ ∃ r, l' = Lock.afterRelease r) := by
  cases h with
  | move h => exact h.lock_cases
  | encode h => exact .inl ⟨rfl, by rw [h]; rfl⟩
  | tooLarge | writeIbuf | acc => exact .inl ⟨rfl, rfl⟩

/-- One engine's share of the lock invariant is kept, and any other engine holds the lock after iff before. -/
theorem EngineChange.keeps_lock_iff (h : EngineChange o e l E l' E')
    (hinv : EncPhase.midFrame E.phase = true ↔ l = .held e) :
    (EncPhase.midFrame E'.phase = true ↔ l' = .held e) ∧ ∀ f, f ≠ e → (l' = .held f ↔ l = .held f) := by
  rcases h.lock_cases with ⟨rfl, hp⟩ | ⟨rfl, rfl, hp⟩ | ⟨hp, hp', r, rfl⟩
  · exact ⟨hp ▸ hinv, fun _ _ => Iff.rfl⟩
  · exact ⟨by simp [hp], fun f hf => by simp [hf.symm]⟩
  · obtain rfl := hinv.1 hp
    have hfree := Lock.afterRelease_ne_held r
    exact ⟨by simp [hp', hfree], fun f hf => by simp [hfree, hf.symm]⟩

theorem State.resetWith_lockInv (p : Config) : (State.resetWith p).LockInv := by
  refine ⟨fun e E hE => ?_, nofun⟩
  have hidle : EncPhase.midFrame E.phase = false :=
    State.resetWith_engines (P := fun E => EncPhase.midFrame E.phase = false) p rfl E (List.mem_of_getElem? hE)
  exact ⟨fun h => by simp [hidle] at h, nofun⟩

/-- Settles O37: only the engine that takes or gives back the lock changes between mid-frame and not. -/
theorem stepKeepsLockInvariant : Obligations.StepKeepsLockInvariant := by
  intro s t ⟨hiff, hlt⟩ h
  obtain ⟨_, dr, pe, rfl⟩ | hc := step_change h
  · exact State.resetWith_lockInv s.config
  · obtain ⟨hl, hes⟩ | ⟨e, E, E', hE, hch, hes⟩ := hc.engines
    · rw [State.LockInv, hl, hes]
      exact ⟨hiff, hlt⟩
    · obtain ⟨hown, hother⟩ := hch.keeps_lock_iff (hiff e E hE)
      rw [State.LockInv, hes]
      refine ⟨fun f F hF => ?owner, fun f hf => ?holder⟩
      case owner =>
        by_cases hfe : f = e
        · subst hfe
          rw [List.getElem?_set_self (State.lt_of_enc hE)] at hF
          cases hF
          exact hown
        · rw [List.getElem?_set_ne (Ne.symm hfe)] at hF
          exact (hiff f F hF).trans (hother f hfe).symm
      case holder =>
        rw [List.length_set]
        by_cases hfe : f = e
        · exact hfe ▸ State.lt_of_enc hE
        · exact hlt f ((hother f hfe).1 hf)

/-! ## The encoder's counts -/

/-- A property of single engines is kept by every step if it holds at reset and every change of an engine keeps it. -/
theorem step_keeps_engines {P : Encoder → Prop} (hreset : P Encoder.reset)
    (hch : ∀ {o e l E l' E'}, EngineChange o e l E l' E' → P E → P E')
    (hinv : ∀ E ∈ s.encs, P E) (h : step s = .next t) : ∀ E ∈ t.encs, P E := by
  obtain ⟨_, dr, pe, rfl⟩ | hc := step_change h
  · exact State.resetWith_engines s.config hreset
  · obtain ⟨_, hes⟩ | ⟨e, E, E', hE, hc, hes⟩ := hc.engines <;> rw [hes]
    · exact hinv
    · intro F hF
      obtain hF | rfl := List.mem_or_eq_of_mem_set hF
      · exact hinv F hF
      · exact hch hc (hinv E (List.mem_of_getElem? hE))

theorem Encoder.reset_countInv : Encoder.reset.CountInv := ⟨by decide, by decide, nofun, fun _ => rfl⟩

/-- Where a phase puts no condition of its own on the counts, their ranges are enough. -/
theorem Encoder.countInv_of_le {ph : EncPhase} (hp : E.phase = ph) (hlen : E.len.toNat ≤ 128)
    (hidx : E.idx.toNat ≤ E.len.toNat)
    (hph : ph = .idle ∨ ph = .esc2 ∨ ph = .chk ∨ ph = .endMark ∨ ph = .rel) : E.CountInv := by
  subst hp
  refine ⟨hlen, hidx, fun h => ?_, fun h => ?_⟩
  · simp [h] at hph
  · rcases h with h | h | h | h <;> simp [h] at hph

/-- Before BODY nothing is sent. -/
theorem Encoder.countInv_of_idx_zero (hlen : E.len.toNat ≤ 128) (hidx : E.idx = 0#8)
    (hp : E.phase ≠ .body) : E.CountInv :=
  ⟨hlen, by simp [hidx], fun h => absurd h hp, fun _ => hidx⟩

/-- After a payload byte the engine is in BODY only if a byte is left. -/
theorem Encoder.countInv_of_afterByte (hlen : E.len.toNat ≤ 128) (hidx : E.idx.toNat ≤ E.len.toNat)
    (hp : E.phase = E.afterByte) : E.CountInv := by
  unfold Encoder.afterByte at hp
  split at hp
  · exact Encoder.countInv_of_le hp hlen hidx (by simp)
  · next hne =>
    have : E.idx.toNat ≠ E.len.toNat := fun h => hne (BitVec.eq_of_toNat_eq h)
    exact ⟨hlen, hidx, fun _ => by omega, by simp [hp]⟩

theorem EncMove.keeps_countInv {out : List Byte} (h : EncMove o e l E l' E' out) (hinv : E.CountInv) :
    E'.CountInv := by
  have hE := hinv
  obtain ⟨hlen, hidx, hbody, hzero⟩ := hinv
  have hnext (hp : E.phase = .body) : (E.idx + 1#8).toNat ≤ E.len.toNat := by
    have := hbody hp
    bv_omega
  cases h with
  | acqWait => exact hE
  | acqOk h | flush h | start h => exact Encoder.countInv_of_idx_zero hlen (hzero (by simp [h])) nofun
  | size h =>
    have hi : E.idx = 0#8 := hzero (by simp [h])
    by_cases h0 : E.len = 0#8
    · exact Encoder.countInv_of_le (if_pos h0) hlen hidx (by simp)
    · exact ⟨hlen, hidx, fun _ => hi ▸ (BitVec.pos_iff_ne_zero _).2 h0, by simp [h0]⟩
  | escEnd h | escEsc h => exact Encoder.countInv_of_le rfl hlen (hnext h) (by simp)
  | lit h => exact Encoder.countInv_of_afterByte hlen (hnext h) rfl
  | esc2 h => exact Encoder.countInv_of_afterByte hlen hidx rfl
  | acqFail | chk | endMark | rel => exact Encoder.countInv_of_le rfl hlen hidx (by simp)

theorem EngineChange.keeps_countInv (h : EngineChange o e l E l' E') (hinv : E.CountInv) : E'.CountInv := by
  cases h with
  | move h => exact h.keeps_countInv hinv
  | encode h hl => exact Encoder.countInv_of_idx_zero hl rfl nofun
  | tooLarge | writeIbuf | acc => exact hinv

/-- Settles O38: every change of an engine keeps its counts in range. -/
theorem stepKeepsEncoderCounts : Obligations.StepKeepsEncoderCounts :=
  fun _ _ => step_keeps_engines Encoder.reset_countInv EngineChange.keeps_countInv

/-! ## The decoder's counts -/

/-- `Decoder.CountInv` and `State.ObufInv` of the decoder and OBUF alone. -/
def Decoder.StoreInv (D : Decoder) (m : Memory) : Prop :=
  D.CountInv ∧ (∀ i, i < D.n.toNat → (m.read i).isSome = true)
    ∧ (D.busy = false → D.status = .ok → D.rlen = D.n)

theorem Decoder.storeInv_iff (s : State) : s.dec.StoreInv s.obuf ↔ s.dec.CountInv ∧ s.ObufInv := Iff.rfl

theorem Decoder.reset_storeInv : Decoder.reset.StoreInv [] :=
  ⟨⟨by decide, fun _ => rfl⟩, fun _ hi => absurd hi (Nat.not_lt_zero _), fun _ => nofun⟩

/-- A command that ends leaves `n` in `rlen` if it ends with OK (R35, R162). -/
theorem Decoder.StoreInv.finish (h : D.StoreInv m) (k : Status) : (D.finish k).StoreInv m := by
  obtain ⟨hcount, hread, _⟩ := h
  exact ⟨hcount, hread, fun _ hk => if_pos hk⟩

/-- The busy decoder's phase puts no condition on the counts. -/
theorem Decoder.StoreInv.to_phase {ph : DecPhase} (h : D.StoreInv m) (hph : ph ≠ .idle) :
    { D with phase := ph }.StoreInv m := by
  obtain ⟨hcount, hread, _⟩ := h
  exact ⟨hcount, hread, fun hb => absurd hb (by simp [Decoder.busy, hph])⟩

theorem Decoder.storeInv_of_n_zero (hn : D.n = 0#8) (hb : D.phase ≠ .idle) : D.StoreInv m :=
  ⟨⟨by simp [hn], fun _ => hn⟩, by simp [hn], fun h => absurd h (by simp [Decoder.busy, hb])⟩

theorem Committed.phase_eq {d : Byte} (h : Committed d D m D' m') : D'.phase = D.phase := by
  cases h <;> rfl

/-- A commit stores at index `n` and counts it, only below the bound (R151, R152). -/
theorem Committed.keeps_storeInv {d : Byte} (h : Committed d D m D' m') (hb : D.phase ≠ .idle)
    (hinv : D.StoreInv m) : D'.StoreInv m' := by
  have hbusy : D'.busy = false → D'.status = .ok → D'.rlen = D'.n := fun hi =>
    absurd hi (by simp [Decoder.busy, h.phase_eq, hb])
  obtain ⟨⟨hn, hpend⟩, hread, _⟩ := hinv
  cases h with
  | first => exact ⟨⟨hn, nofun⟩, hread, hbusy⟩
  | drop => exact ⟨⟨hn, hpend⟩, hread, hbusy⟩
  | store hp hlt =>
    have hn1 : (D.n + 1#8).toNat = D.n.toNat + 1 := by
      have := D.bound_le
      bv_omega
    refine ⟨⟨Nat.le_trans (Nat.le_of_eq hn1) hlt, fun h => by simp [hp] at h⟩, fun i (hi : i < (D.n + 1#8).toNat) => ?_, hbusy⟩
    rw [Memory.read_write]
    split
    · rfl
    · exact hread i (by omega)

theorem DecMove.keeps_storeInv {c : Byte} (h : DecMove o c D m D' m') (hinv : D.StoreInv m) : D'.StoreInv m' := by
  cases h with
  | asOther => exact hinv
  | asStart | rbEsc => exact hinv.to_phase nofun
  | rsAny => exact Decoder.storeInv_of_n_zero rfl nofun
  | rbEndOk | rbEndBad | beBad => exact hinv.finish _
  | rbData h _ _ hc => exact hc.keeps_storeInv (by simp [h]) hinv
  | beEscEnd h hc | beEscEsc h hc => exact (hc.keeps_storeInv (by simp [h]) hinv).to_phase nofun

theorem DecoderChange.keeps_storeInv (h : DecoderChange o w D m D' m') (hinv : D.StoreInv m) : D'.StoreInv m' := by
  cases h with
  | same | acc => exact hinv
  | move h => exact h.keeps_storeInv hinv
  | decode => exact Decoder.storeInv_of_n_zero rfl nofun
  | cancel => exact hinv.finish _

/-- Settles O39: a commit stores what it counts, DECODE and SIZE clear the count, and only OK reports it. -/
theorem stepKeepsDecoderCounts : Obligations.StepKeepsDecoderCounts := by
  intro s t hcount hobuf h
  obtain ⟨_, dr, pe, rfl⟩ | hc := step_change h
  · exact Decoder.reset_storeInv
  · have hinv := (Decoder.storeInv_iff s).2 ⟨hcount, hobuf⟩
    exact (Decoder.storeInv_iff t).1 (hc.decoder.keeps_storeInv hinv)

/-! ## The running sum -/

/-- Only SIZE leads into the body (R155): it clears the sum, the count and the candidate. -/
theorem DecMove.enters_body {c : Byte} (h : DecMove o c D m D' m') (hb : DecPhase.inBody D.phase = false)
    (hb' : DecPhase.inBody D'.phase = true) : D'.pend = false ∧ D'.HasCommitted m' [] := by
  cases h with
  | rsAny => exact ⟨rfl, (Decoder.hasCommitted_nil ..).2 ⟨rfl, rfl⟩⟩
  | asStart => cases hb'
  | asOther h => rw [h] at hb'; cases hb'
  | rbEndOk h | rbEndBad h | rbEsc h | rbData h | beEscEnd h | beEscEsc h | beBad h => rw [h] at hb; cases hb

theorem DecoderChange.enters_body (h : DecoderChange o none D m D' m') (hb : DecPhase.inBody D.phase = false)
    (hb' : DecPhase.inBody D'.phase = true) : D'.pend = false ∧ D'.HasCommitted m' [] := by
  cases h with
  | move h => exact h.enters_body hb hb'
  | same => rw [hb] at hb'; cases hb'
  | decode | cancel => cases hb'
  | acc v h => exact absurd rfl h

/-- `D'` has the committed octets `L` of `D` and its candidate, or `L` with the old candidate appended. -/
def Decoder.Commits (D D' : Decoder) (m' : Memory) (L : List Byte) : Prop :=
  (D'.HasCommitted m' L ∧ (D.pend = true → D'.pend = true ∧ D'.prev = D.prev))
    ∨ (D.pend = true ∧ D'.HasCommitted m' (L ++ [D.prev]))

theorem Committed.commits {d : Byte} {L : List Byte} (h : Committed d D m D' m') (hL : D.HasCommitted m L) :
    D.Commits D' m' L := by
  have hL' := h.hasCommitted hL
  by_cases hp : D.pend = true
  · rw [if_pos hp] at hL'
    exact .inr ⟨hp, hL'⟩
  · rw [if_neg hp] at hL'
    exact .inl ⟨hL', fun h => absurd h hp⟩

theorem DecMove.commits {c : Byte} {L : List Byte} (h : DecMove o c D m D' m') (hL : D.HasCommitted m L)
    (hb : DecPhase.inBody D.phase = true) (hb' : DecPhase.inBody D'.phase = true) : D.Commits D' m' L := by
  cases h with
  | rbEsc => exact .inl ⟨hL, fun hp => ⟨hp, rfl⟩⟩
  | rbData _ _ _ hc | beEscEnd _ hc | beEscEsc _ hc => exact hc.commits hL
  | asStart | rbEndOk | rbEndBad | beBad => cases hb'
  | asOther h | rsAny h => rw [h] at hb; cases hb

theorem DecoderChange.commits {L : List Byte} (h : DecoderChange o none D m D' m') (hL : D.HasCommitted m L)
    (hb : DecPhase.inBody D.phase = true) (hb' : DecPhase.inBody D'.phase = true) : D.Commits D' m' L := by
  cases h with
  | same => exact .inl ⟨hL, fun hp => ⟨hp, rfl⟩⟩
  | move h => exact h.commits hL hb hb'
  | decode | cancel => cases hb'
  | acc v h => exact absurd rfl h

/-- Settles O42: without a bare micro-operation the body is entered by SIZE only, and inside it octets are committed by
`Commit` only. -/
theorem stepKeepsRunningSum : Obligations.StepKeepsRunningSum := by
  intro s t L hm hL h
  obtain ⟨_, dr, pe, rfl⟩ | hc := step_change h
  · exact ⟨rfl, nofun, nofun⟩
  · have hd : DecoderChange s.ctl none s.dec s.obuf t.dec t.obuf := hm ▸ hc.decoder
    exact ⟨hc.micro hm, hd.enters_body, fun hb => hd.commits (hL hb) hb⟩

/-! ## The configuration and the sticky records -/

/-- Settles O43: no component's change writes a control octet, and an engine is replaced in its place. -/
theorem configurationNeverChanges : Obligations.ConfigurationNeverChanges := by
  intro s t h
  obtain ⟨_, dr, pe, rfl⟩ | hc := step_change h
  · exact ⟨rfl, List.length_replicate⟩
  · refine ⟨hc.ctl, ?_⟩
    obtain ⟨_, hes⟩ | ⟨e, E, E', _, _, hes⟩ := hc.engines <;> rw [hes]
    exact List.length_set

/-- A BROKEN lock cannot be taken, and no engine that holds the lock is there to give it back. -/
theorem EngineChange.keeps_broken (h : EngineChange o e .broken E l' E')
    (hinv : EncPhase.midFrame E.phase = true ↔ Lock.broken = .held e) : l' = .broken := by
  rcases h.lock_cases with ⟨hl, _⟩ | ⟨hl, _⟩ | ⟨hp, _⟩
  · exact hl
  · cases hl
  · cases hinv.1 hp

/-- Settles O44: no component's change clears a record, and a BROKEN lock has no holder. -/
theorem stickyUntilReset : Obligations.StickyUntilReset := by
  intro s t ⟨hiff, _⟩ h hev
  obtain ⟨hreset, _⟩ | hc := step_change h
  · exact absurd hreset hev
  · refine ⟨hc.faults, hc.refused, fun hl => ?_⟩
    obtain ⟨hl', _⟩ | ⟨e, E, E', hE, hch, _⟩ := hc.engines
    · exact hl'.trans hl
    · rw [hl] at hch
      exact hch.keeps_broken (hl ▸ hiff e E hE)

/-! ## Reset -/

theorem FaultSet.mem_empty (r : DutyFault) : FaultSet.empty.mem r = false := by
  cases r <;> rfl

/-- Settles O34: each register as R47 lists it; every engine is `Encoder.reset`. -/
theorem resetValues : Obligations.ResetValues := by
  intro p
  refine ⟨_, rfl, rfl, List.length_replicate, fun E hE => ?engine, ?rest⟩
  case engine =>
    obtain rfl : E = Encoder.reset := List.eq_of_mem_replicate hE
    exact ⟨rfl, rfl, rfl, rfl, rfl, rfl, rfl, Memory.read_nil⟩
  case rest =>
    exact ⟨rfl, rfl, rfl, rfl, rfl, rfl, rfl, rfl, rfl, rfl, Memory.read_nil, rfl, rfl, rfl, FaultSet.mem_empty, rfl⟩

/-- Settles O36: every engine is idle and empty, the decoder is idle, and both octet spaces are empty. -/
theorem resetMeetsTheInvariants : Obligations.ResetMeetsTheInvariants := by
  refine ⟨rfl, fun p => ⟨_, rfl, State.resetWith_lockInv p, State.resetWith_engines p Encoder.reset_countInv,
    Decoder.reset_storeInv.1, Decoder.reset_storeInv.2, ?result, ?mem, nofun⟩⟩
  case result => exact ⟨State.resetWith_engines p nofun, nofun⟩
  case mem => exact ⟨State.resetWith_engines p (Memory.wf_nil _), Memory.wf_nil _⟩

end Sys2Proof.Machine

/-! The memories and the ports under every step (20_memory.md): the octet spaces stay in their ranges, RXQ is
first-in first-out, and the octets of a frame stand together in TXLOG. -/
namespace Sys2Proof.Machine

variable {s t u : State} {i : Instr} {o : ControlOctets} {e : Nat} {l l' : Lock} {E E' : Encoder}
  {D D' : Decoder} {m m' : Memory} {w : Option MicroOp} {b : Byte} {out P pre : List Byte}

/-! ## The octet spaces (R50) -/

theorem EncMove.ibuf_eq (h : EncMove o e l E l' E' out) : E'.ibuf = E.ibuf := by
  cases h <;> rfl

theorem EngineChange.keeps_wf (h : EngineChange o e l E l' E') (hwf : Memory.wf Config.ibufCap E.ibuf = true) :
    Memory.wf Config.ibufCap E'.ibuf = true := by
  cases h with
  | move h => rwa [h.ibuf_eq]
  | writeIbuf _ hj => exact Memory.wf_write _ hwf hj
  | tooLarge | encode | acc => exact hwf

/-- A commit stores below the bound only, and the bound is at most the capacity of OBUF (R151). -/
theorem Committed.keeps_wf {d : Byte} (h : Committed d D m D' m') (hwf : Memory.wf Config.obufCap m = true) :
    Memory.wf Config.obufCap m' = true := by
  cases h with
  | store _ hn => exact Memory.wf_write _ hwf (Nat.lt_of_lt_of_le hn D.bound_le)
  | first | drop => exact hwf

theorem DecMove.keeps_wf {c : Byte} (h : DecMove o c D m D' m') (hwf : Memory.wf Config.obufCap m = true) :
    Memory.wf Config.obufCap m' = true := by
  cases h with
  | rbData _ _ _ hc | beEscEnd _ hc | beEscEsc _ hc => exact hc.keeps_wf hwf
  | asStart | asOther | rsAny | rbEndOk | rbEndBad | rbEsc | beBad => exact hwf

theorem DecoderChange.keeps_wf (h : DecoderChange o w D m D' m') (hwf : Memory.wf Config.obufCap m = true) :
    Memory.wf Config.obufCap m' = true := by
  cases h with
  | move h => exact h.keeps_wf hwf
  | same | decode | cancel | acc => exact hwf

/-- Settles O40: only WRITE_IBUF writes an IBUF and only a commit writes OBUF, each below the capacity. -/
theorem stepKeepsOctetSpaces : Obligations.StepKeepsOctetSpaces := by
  intro s t ⟨hibuf, hobuf⟩ h
  refine ⟨step_keeps_engines (Memory.wf_nil _) EngineChange.keeps_wf hibuf h, ?_⟩
  obtain ⟨_, dr, pe, rfl⟩ | hc := step_change h
  · exact Memory.wf_nil _
  · exact hc.decoder.keeps_wf hobuf

/-! ## The receive queue (R58) -/

theorem ReqMove.rxq_eq (h : ReqMove i u t) : t.rxq = u.rxq := by
  cases h <;> rfl

theorem exec_acc_rxq (hi : i.format = .accOp) (h : exec i u = .next t) : t.rxq = u.rxq := by
  obtain ⟨_, rfl⟩ | ⟨_, rfl⟩ | ⟨_, _, _, _, rfl⟩ := exec_acc_next hi h <;> rfl

/-- Only the decoder takes from the queue, from its front; only a delivery appends. -/
theorem exec_chosen_rxq {ev : Event} (h : exec i u = .next t) (hc : Chooses ev i) :
    t.rxq = u.rxq ∨ (ev = .dec ∧ ∃ c, u.rxq = c :: t.rxq) ∨ ∃ c, ev = .link c ∧ t.rxq = u.rxq ++ [c] := by
  cases hc with
  | host hi => exact .inl (exec_req_next hi h).rxq_eq
  | enc hi =>
    obtain ⟨_, _, _, _, _, _, rfl⟩ := exec_enc_next hi h
    exact .inl rfl
  | dec hi =>
    obtain ⟨c, _, _, _, hq, _, rfl⟩ := exec_dec_next hi h
    exact .inr (.inl ⟨rfl, c, hq⟩)
  | link c =>
    cases h
    exact .inr (.inr ⟨c, rfl, rfl⟩)

/-- Settles O46: a step takes an octet as the decoder's, appends one as a delivery, or leaves the queue alone. -/
theorem receiveQueueIsFifo : Obligations.ReceiveQueueIsFifo := by
  intro s t h hev
  obtain ⟨_, u, ⟨dr, pe, rfl⟩, ⟨_, i, hi, h⟩ | ⟨_, rfl⟩ | ⟨ev, rest, _, hp, rfl | ⟨rfl, _⟩ | ⟨i, h, hc⟩⟩⟩ :=
    step_moves h
  · have hq := exec_acc_rxq hi h
    exact .inl hq
  · exact .inl rfl
  · exact .inl rfl
  · exact absurd (by rw [hp]; rfl) hev
  · simpa [hp] using exec_chosen_rxq h hc

/-! ## What a step does to the lock, the engines and TXLOG -/

/-- What a step other than the reset event can do to the lock, the engines and TXLOG, with no micro-operation waiting:
nothing, a request on an idle engine, or a move of an engine with the octets it emits. -/
inductive WireChange (s t : State) : Prop
  | quiet (hl : t.lock = s.lock) (hes : t.encs = s.encs) (htx : t.txlog = s.txlog)
  | request {e : Nat} {E E' : Encoder} (hE : s.encs[e]? = some E) (hp : E.phase = .idle) (hl : t.lock = s.lock)
      (hes : t.encs = s.encs.set e E') (htx : t.txlog = s.txlog)
  | move {e : Nat} {E E' : Encoder} {out : List Byte} (hE : s.encs[e]? = some E)
      (hmove : EncMove s.ctl e s.lock E t.lock E' out) (hes : t.encs = s.encs.set e E') (htx : t.txlog = s.txlog ++ out)

theorem ReqMove.wireChange (h : ReqMove i u t) : WireChange u t := by
  cases h with
  | tooLarge _ hE hp | encode _ hE hp | writeIbuf _ hE hp => exact .request hE hp rfl rfl rfl
  | refused | fault | decode | cancel | answer => exact .quiet rfl rfl rfl

theorem exec_chosen_wireChange {ev : Event} (h : exec i u = .next t) (hc : Chooses ev i) : WireChange u t := by
  cases hc with
  | host hi => exact (exec_req_next hi h).wireChange
  | enc hi =>
    obtain ⟨E, l, E', out, hE, hmove, rfl⟩ := exec_enc_next hi h
    exact .move hE hmove rfl rfl
  | dec hi =>
    obtain ⟨_, _, _, _, _, _, rfl⟩ := exec_dec_next hi h
    exact .quiet rfl rfl rfl
  | link c =>
    cases h
    exact .quiet rfl rfl rfl

/-- What the step consumes (a choice, draws) is not on the wire. -/
theorem WireChange.of_consumed {mi : Option MicroOp} {dr : Nat} {pe : List Event}
    (h : WireChange { s with micro := mi, draws := dr, pending := pe } t) : WireChange s t := by
  cases h with
  | quiet hl hes htx => exact .quiet hl hes htx
  | request hE hp hl hes htx => exact .request hE hp hl hes htx
  | move hE hmove hes htx => exact .move hE hmove hes htx

theorem step_wireChange (hm : s.micro = none) (hev : s.pending.head? ≠ some .reset) (h : step s = .next t) :
    WireChange s t := by
  obtain ⟨_, u, ⟨dr, pe, rfl⟩, ⟨hm', _⟩ | ⟨_, rfl⟩ | ⟨ev, rest, _, hp, rfl | ⟨rfl, _⟩ | ⟨i, h, hc⟩⟩⟩ :=
    step_moves h
  · exact absurd hm hm'
  · exact .quiet rfl rfl rfl
  · exact .quiet rfl rfl rfl
  · exact absurd (by rw [hp]; rfl) hev
  · exact (exec_chosen_wireChange h hc).of_consumed

theorem State.end_ne_esc (h : s.config.valid = true) : s.ctl.endOctet ≠ s.ctl.escOctet := by
  intro heq
  simp [Config.valid, ControlOctets.valid, heq] at h

/-! ## A frame in progress (R59, R132) -/

/-- The part of `Encoder.carries` that no phase changes: the payload stands in IBUF, `idx` of its bytes are summed. -/
def Encoder.HasPayload (E : Encoder) (P : List Byte) : Prop :=
  P.length ≤ 128 ∧ E.len = BitVec.ofNat 8 P.length ∧ (∀ k, k < P.length → E.ibuf.read k = P[k]?)
    ∧ E.idx.toNat ≤ P.length ∧ E.acc.toNat = ((P.take E.idx.toNat).map BitVec.toNat).sum % 256

/-- The part of `Encoder.carries` that phase `ph` adds. -/
def Encoder.FitsPhase (o : ControlOctets) (P : List Byte) (E : Encoder) : EncPhase → Prop
  | .idle => False
  | .acq => False
  | .flush => E.idx = 0#8
  | .start => E.idx = 0#8
  | .size => E.idx = 0#8
  | .body => E.idx.toNat < P.length
  | .esc2 => ∃ k b, E.idx.toNat = k + 1 ∧ P[k]? = some b ∧ stuff o b = [o.escOctet, E.sub]
  | .chk => E.idx.toNat = P.length
  | .endMark => E.idx.toNat = P.length
  | .rel => E.idx.toNat = P.length

theorem Encoder.carries_iff : E.carries o P ↔ E.HasPayload P ∧ E.FitsPhase o P E.phase := by
  unfold Encoder.carries Encoder.HasPayload
  cases E.phase <;> simp [EncPhase.midFrame, Encoder.FitsPhase, and_assoc]

/-- The octets of `frame(P)` before the checksum, up to payload byte `n` (R70). -/
def framePrefix (o : ControlOctets) (P : List Byte) (n : Nat) : List Byte :=
  [o.endOctet, o.startOctet, BitVec.ofNat 8 P.length] ++ stuffAll o (P.take n)

theorem framePrefix_length :
    framePrefix o P P.length = [o.endOctet, o.startOctet, BitVec.ofNat 8 P.length] ++ stuffAll o P := by
  rw [framePrefix, List.take_length]

theorem framePrefix_succ {n : Nat} (hb : P[n]? = some b) :
    framePrefix o P (n + 1) = framePrefix o P n ++ stuff o b := by
  simp [framePrefix, List.take_add_one, hb, stuffAll]

theorem Encoder.HasPayload.idx_eq_len_iff (h : E.HasPayload P) : E.idx = E.len ↔ E.idx.toNat = P.length := by
  obtain ⟨hlen, hl, _⟩ := h
  rw [hl]
  bv_omega

/-- The checksum octet: once every byte is summed, FOLD gives `chk(P)` (R129, R192). -/
theorem Encoder.HasPayload.fold_acc (h : E.HasPayload P) (hidx : E.idx.toNat = P.length) : Acc.fold E.acc = chk P := by
  obtain ⟨_, _, _, _, hacc⟩ := h
  rw [hidx, List.take_length] at hacc
  apply BitVec.eq_of_toNat_eq
  rw [Acc.fold_toNat, hacc, chk, BitVec.toNat_ofNat]
  omega

/-- A BODY step takes the next payload byte: IBUF holds no other. -/
theorem Encoder.HasPayload.next_byte (h : E.HasPayload P) (hidx : E.idx.toNat < P.length) (hb : E.holds b = true) :
    P[E.idx.toNat]? = some b := by
  obtain ⟨_, _, hread, _⟩ := h
  have hr := hread _ hidx
  rw [List.getElem?_eq_getElem hidx] at hr ⊢
  simpa [Encoder.holds, hr] using hb

theorem Encoder.HasPayload.idx_succ (h : E.HasPayload P) (hidx : E.idx.toNat < P.length) :
    (E.idx + 1#8).toNat = E.idx.toNat + 1 := by
  obtain ⟨hlen, _⟩ := h
  bv_omega

theorem Encoder.HasPayload.takeByte (h : E.HasPayload P) (hidx : E.idx.toNat < P.length)
    (hb : P[E.idx.toNat]? = some b) : (E.takeByte b).HasPayload P := by
  have hsucc := h.idx_succ hidx
  obtain ⟨hlen, hl, hread, _, hacc⟩ := h
  refine ⟨hlen, hl, hread, ?idx, ?acc⟩
  case idx =>
    rw [Encoder.takeByte_idx, hsucc]
    exact hidx
  case acc =>
    rw [Encoder.takeByte_idx, Encoder.takeByte_acc, hsucc, BitVec.toNat_add, hacc, List.take_add_one, hb]
    simp

/-- After a payload byte is sent the engine is in BODY or CHK, and has sent the frame up to that byte. -/
theorem Encoder.HasPayload.afterByte (h : E.HasPayload P) :
    { E with phase := E.afterByte }.carries o P
      ∧ { E with phase := E.afterByte }.sent o P = framePrefix o P E.idx.toNat := by
  have ⟨_, hl, _, hle, _⟩ := h
  rw [Encoder.carries_iff, Encoder.sent, Encoder.afterByte]
  by_cases hlast : E.idx = E.len
  · have hidx := h.idx_eq_len_iff.1 hlast
    rw [if_pos hlast]
    exact ⟨⟨h, hidx⟩, by rw [hidx, framePrefix_length, hl]⟩
  · have hidx := mt h.idx_eq_len_iff.2 hlast
    rw [if_neg hlast]
    exact ⟨⟨h, Nat.lt_of_le_of_ne hle hidx⟩, by rw [framePrefix, hl]⟩

theorem Encoder.sent_body (hp : E.phase = .body) (h : E.HasPayload P) :
    E.sent o P = framePrefix o P E.idx.toNat := by
  obtain ⟨_, hl, _⟩ := h
  rw [Encoder.sent, hp, framePrefix, hl]

theorem Encoder.sent_esc2 (hp : E.phase = .esc2) (h : E.HasPayload P) :
    E.sent o P = framePrefix o P (E.idx.toNat - 1) ++ [o.escOctet] := by
  obtain ⟨_, hl, _⟩ := h
  rw [Encoder.sent, hp, framePrefix, hl]

/-- The first half of an escaped byte: ESC is sent, and the substitute code is remembered (R126, R127). -/
theorem Encoder.HasPayload.escape {sub : Byte} (h : E.HasPayload P) (hidx : E.idx.toNat < P.length)
    (hb : E.holds b = true) (hp : E.phase = .body) (hstuff : stuff o b = [o.escOctet, sub]) :
    { E.takeByte b with sub := sub, phase := .esc2 }.carries o P
      ∧ { E.takeByte b with sub := sub, phase := .esc2 }.sent o P = E.sent o P ++ [o.escOctet] := by
  have hb := h.next_byte hidx hb
  have hP : { E.takeByte b with sub := sub, phase := .esc2 }.HasPayload P := h.takeByte hidx hb
  have hsucc := h.idx_succ hidx
  refine ⟨Encoder.carries_iff.2 ⟨hP, _, _, hsucc, hb, hstuff⟩, ?_⟩
  rw [Encoder.sent_body hp h, Encoder.sent_esc2 rfl hP]
  change framePrefix o P ((E.idx + 1#8).toNat - 1) ++ _ = _
  rw [hsucc, Nat.add_sub_cancel]

/-- One move of an engine that is sending `frame(P)`: the octet it emits is the frame's next one, or the frame is
complete and the command ends with the lock given up. -/
theorem EncMove.sends_frame (hne : o.endOctet ≠ o.escOctet) (h : EncMove o e l E l' E' out) (hc : E.carries o P) :
    (l' = l ∧ E'.carries o P ∧ E'.sent o P = E.sent o P ++ out)
      ∨ ∃ r, l' = Lock.afterRelease r ∧ E' = E.finish (Status.ofRelease r) ∧ E.sent o P ++ out = frame o P := by
  obtain ⟨hP, hfit⟩ := Encoder.carries_iff.1 hc
  have ⟨_, hl, _⟩ := hP
  cases h with
  | acqOk h | acqWait h | acqFail h =>
    rw [h] at hfit
    exact hfit.elim
  | flush h | start h =>
    rw [h] at hfit
    refine .inl ⟨rfl, Encoder.carries_iff.2 ⟨hP, hfit⟩, ?_⟩
    rw [Encoder.sent, Encoder.sent, h]
    rfl
  | size h =>
    rw [h] at hfit
    have hidx : E.idx = 0#8 := hfit
    have hafter : (if E.len = 0#8 then EncPhase.chk else .body) = E.afterByte := by
      rw [Encoder.afterByte, hidx]
      simp only [eq_comm]
    obtain ⟨hc', hs⟩ := hP.afterByte (o := o)
    rw [hafter]
    refine .inl ⟨rfl, hc', ?_⟩
    rw [hs, hidx, Encoder.sent, h, hl]
    rfl
  | escEnd h hb =>
    rw [h] at hfit
    exact .inl ⟨rfl, hP.escape hfit hb h (by simp [stuff])⟩
  | escEsc h hb =>
    rw [h] at hfit
    exact .inl ⟨rfl, hP.escape hfit hb h (by simp [stuff, hne.symm])⟩
  | lit h hb h1 h2 =>
    rw [h] at hfit
    have hb := hP.next_byte hfit hb
    obtain ⟨hc', hs⟩ := (hP.takeByte hfit hb).afterByte (o := o)
    refine .inl ⟨rfl, hc', ?_⟩
    rw [hs, Encoder.sent_body h hP, Encoder.takeByte_idx, hP.idx_succ hfit, framePrefix_succ hb, stuff, if_neg h1,
      if_neg h2]
  | esc2 h =>
    rw [h] at hfit
    obtain ⟨k, b, hk, hb, hstuff⟩ := hfit
    obtain ⟨hc', hs⟩ := hP.afterByte (o := o)
    refine .inl ⟨rfl, hc', ?_⟩
    rw [hs, Encoder.sent_esc2 h hP, hk, Nat.add_sub_cancel, framePrefix_succ hb, hstuff, List.append_assoc]
    rfl
  | chk h =>
    rw [h] at hfit
    refine .inl ⟨rfl, Encoder.carries_iff.2 ⟨hP, hfit⟩, ?_⟩
    rw [Encoder.sent, Encoder.sent, h, hP.fold_acc hfit]
  | endMark h =>
    rw [h] at hfit
    refine .inl ⟨rfl, Encoder.carries_iff.2 ⟨hP, hfit⟩, ?_⟩
    rw [Encoder.sent, Encoder.sent, h, hl]
    simp [frame]
  | rel r h => exact .inr ⟨r, rfl, rfl, by rw [Encoder.sent, h, List.append_nil]⟩

/-- Another engine cannot start while the lock is taken: before FLUSH it emits nothing and leaves the lock. -/
theorem EncMove.silent_before_lock (h : EncMove o e l E l' E' out) (hmid : EncPhase.midFrame E.phase = false)
    (hl : l ≠ .free) : l' = l ∧ out = [] := by
  cases h with
  | acqOk => exact absurd rfl hl
  | acqWait | acqFail => exact ⟨rfl, rfl⟩
  | flush h | start h | size h | escEnd h | escEsc h | lit h | esc2 h | chk h | endMark h | rel _ h =>
    rw [h] at hmid
    cases hmid

/-- Settles O51: the holder's own moves emit the frame's octets in order, and no other engine emits or gives up the
lock while it is held. -/
theorem frameIsContiguousUnderEveryInterleaving : Obligations.FrameIsContiguousUnderEveryInterleaving := by
  intro s t e P pre ⟨hiff, _⟩ hm ⟨hlock, E, hE, hc, htx⟩ hev h
  obtain ⟨hctl, _⟩ := configurationNeverChanges s t h
  have hmid := (hiff e E hE).2 hlock
  have untouched (hl : t.lock = s.lock) (hE' : t.encs[e]? = some E) (htx' : t.txlog = s.txlog) : t.Sending e P pre :=
    ⟨hl.trans hlock, E, hE', hctl ▸ hc, by rw [htx', htx, hctl]⟩
  cases step_wireChange hm hev h with
  | quiet hl hes htx' => exact .inl (untouched hl (hes ▸ hE) htx')
  | @request f F F' hF hp hl hes htx' =>
    have hfe : f ≠ e := by
      rintro rfl
      cases hF.symm.trans hE
      rw [hp] at hmid
      cases hmid
    exact .inl (untouched hl (by rw [hes, List.getElem?_set_ne hfe, hE]) htx')
  | @move f F F' out hF hmove hes htx' =>
    by_cases hfe : f = e
    case neg =>
      have hidle : EncPhase.midFrame F.phase = false := by
        rw [← Bool.not_eq_true, hiff f F hF, hlock, Lock.held.injEq]
        exact Ne.symm hfe
      obtain ⟨hl, rfl⟩ := hmove.silent_before_lock hidle (by simp [hlock])
      exact .inl (untouched hl (by rw [hes, List.getElem?_set_ne hfe, hE]) (by simpa using htx'))
    case pos =>
      subst hfe
      cases hF.symm.trans hE
      have hE' : t.encs[f]? = some F' := by rw [hes, List.getElem?_set_self (State.lt_of_enc hE)]
      have hne := State.end_ne_esc (step_next_cases h).1
      obtain ⟨hl, hc', hs⟩ | ⟨r, hl, rfl, hs⟩ := hmove.sends_frame hne hc
      · exact .inl ⟨hl.trans hlock, F', hE', hctl ▸ hc', by rw [htx', htx, hctl, hs, List.append_assoc]⟩
      · refine .inr ⟨by rw [htx', htx, List.append_assoc, hs], ?_, _, hE', rfl, rfl, ?_⟩
        · rw [hl]
          exact Lock.afterRelease_ne_held r f
        · cases r <;> simp [Status.ofRelease]

end Sys2Proof.Machine

/-! The encodings (30_encoding.md): the decoders on the words of each row, the masks of the request word, and which
configurations are legal. -/
namespace Sys2Proof

/-! ## The legal configurations (R5, R71) -/

/-- K1 to K5 in order, then the range of `N_ENC`. -/
theorem Config.valid_iff (p : Config) : p.valid = true ↔
    p.octets.startOctet ≠ p.octets.endOctet ∧ p.octets.startOctet ≠ p.octets.escOctet
      ∧ p.octets.endOctet ≠ p.octets.escOctet ∧ p.octets.escEnd ≠ p.octets.escEsc
      ∧ p.octets.escEnd ≠ p.octets.endOctet ∧ p.octets.escEnd ≠ p.octets.escOctet
      ∧ p.octets.escEsc ≠ p.octets.endOctet ∧ p.octets.escEsc ≠ p.octets.escOctet
      ∧ 0x81 ≤ p.octets.endOctet.toNat ∧ 0x81 ≤ p.octets.escOctet.toNat
      ∧ 1 ≤ p.nEnc ∧ p.nEnc ≤ 256 := by
  simp [Config.valid, ControlOctets.valid, BitVec.le_def, and_assoc]

theorem octet_ofNat_toNat {k : Nat} (hk : k < 256) : (BitVec.ofNat 8 k).toNat = k :=
  (BitVec.toNat_ofNat k 8).trans (Nat.mod_eq_of_lt hk)

section
variable {p : Config} {e : Nat}

/-- K2. -/
theorem Config.esc_ne_end (hv : p.valid = true) : p.octets.escOctet ≠ p.octets.endOctet := by
  obtain ⟨-, -, hK2, -⟩ := p.valid_iff.1 hv
  exact hK2.symm

/-- K3. -/
theorem Config.escEsc_ne_escEnd (hv : p.valid = true) : p.octets.escEsc ≠ p.octets.escEnd := by
  obtain ⟨-, -, -, hK3, -⟩ := p.valid_iff.1 hv
  exact hK3.symm

/-- `N_ENC` of 256 is the most that an eight-bit engine field can name. -/
theorem Config.engineField_toNat (hv : p.valid = true) (he : e < p.nEnc) : (BitVec.ofNat 8 e).toNat = e := by
  obtain ⟨-, -, -, -, -, -, -, -, -, -, -, hmax⟩ := p.valid_iff.1 hv
  exact octet_ofNat_toNat (by omega)

end

section
variable (p : Config) (op : BitVec 4) (f27 : Byte) (f19 : BitVec 4) (f15 f7 : Byte)

/-! ## The request decoder, one equation per op (R78 to R84, R86) -/

theorem decodeHost_encode : decodeHost p (hostWord 0#4 f27 f19 f15 f7)
    = ifReservedZero (f19 == 0#4 && f15 == 0#8) (forEngine p f27.toNat (.encode f27.toNat f7)) := by
  simp [decodeHost]

theorem decodeHost_decode : decodeHost p (hostWord 1#4 f27 f19 f15 f7)
    = ifReservedZero (f27 == 0#8 && f19 == 0#4 && f15 == 0#8) (.ok (.decode f7)) := by
  simp [decodeHost]

theorem decodeHost_cancel : decodeHost p (hostWord 2#4 f27 f19 f15 f7)
    = ifReservedZero (f27 == 0#8 && f19 == 0#4 && f15 == 0#8 && f7 == 0#8) (.ok .cancel) := by
  simp [decodeHost]

theorem decodeHost_writeIbuf : decodeHost p (hostWord 3#4 f27 f19 f15 f7)
    = ifReservedZero (f19 == 0#4 && !f15.msb)
        (forEngine p f27.toNat (.writeIbuf f27.toNat f15.toNat f7)) := by
  simp [decodeHost]

theorem decodeHost_readObuf : decodeHost p (hostWord 4#4 f27 f19 f15 f7)
    = ifReservedZero (f27 == 0#8 && f19 == 0#4 && f7 == 0#8)
        (if f15 = 0xFF#8 then .error .obufIndex else .ok (.readObuf f15.toNat)) := by
  simp [decodeHost]

theorem decodeHost_readStatusEnc : decodeHost p (hostWord 5#4 f27 f19 f15 f7)
    = ifReservedZero (f19 == 0#4 && f15 == 0#8 && f7 == 0#8)
        (forEngine p f27.toNat (.readStatusEnc f27.toNat)) := by
  simp [decodeHost]

theorem decodeHost_readStatusDec : decodeHost p (hostWord 6#4 f27 f19 f15 f7)
    = ifReservedZero (f27 == 0#8 && f19 == 0#4 && f15 == 0#8 && f7 == 0#8) (.ok .readStatusDec) := by
  simp [decodeHost]

theorem decodeHost_reservedOp7 {w : Word} (h : w.extractLsb' 28 4 = 7#4) :
    decodeHost p w = .ok (.reservedOp7 (w.extractLsb' 0 28)) := by
  simp [decodeHost, h]

theorem decodeHost_reservedOp8ToF {w : Word} (h : 8 ≤ (w.extractLsb' 28 4).toNat) :
    decodeHost p w = .ok (.reservedOp8ToF (w.extractLsb' 0 31)) := by
  unfold decodeHost
  split
  case h_9 => rfl
  all_goals omega

/-! ## Masks: field by field, and of a field its whole or its top bit -/

/-- A word passes a mask exactly if each of its fields passes the mask's field. -/
theorem hostWord_and_eq_iff (m v : Word) :
    hostWord op f27 f19 f15 f7 &&& m = v ↔
      op &&& m.extractLsb' 28 4 = v.extractLsb' 28 4 ∧ f27 &&& m.extractLsb' 20 8 = v.extractLsb' 20 8
        ∧ f19 &&& m.extractLsb' 16 4 = v.extractLsb' 16 4 ∧ f15 &&& m.extractLsb' 8 8 = v.extractLsb' 8 8
        ∧ f7 &&& m.extractLsb' 0 8 = v.extractLsb' 0 8 := by
  rw [← hostWord_inj, ← hostWord_and, hostWord_fields, hostWord_fields]

/-- A word is `v` exactly if each of its fields is `v`'s. -/
theorem hostWord_eq_iff (v : Word) :
    hostWord op f27 f19 f15 f7 = v ↔
      op = v.extractLsb' 28 4 ∧ f27 = v.extractLsb' 20 8 ∧ f19 = v.extractLsb' 16 4 ∧ f15 = v.extractLsb' 8 8
        ∧ f7 = v.extractLsb' 0 8 := by
  rw [← hostWord_inj, hostWord_fields]

theorem and_0xF (x : BitVec 4) : x &&& 0xF#4 = x := BitVec.and_allOnes

theorem and_0xFF (x : Byte) : x &&& 0xFF#8 = x := BitVec.and_allOnes

theorem and_0x80_eq_zero_iff (x : Byte) : x &&& 0x80#8 = 0#8 ↔ x.msb = false := by
  rw [show 0x80#8 = BitVec.twoPow 8 7 from rfl, BitVec.and_twoPow, BitVec.msb_eq_getLsbD_last]
  cases x.getLsbD 7 <;> simp

theorem and_0x8_eq_iff (x : BitVec 4) : x &&& 0x8#4 = 0x8#4 ↔ 8 ≤ x.toNat := by
  revert x; decide

end

theorem hostOp_cases (op : BitVec 4) :
    op = 0#4 ∨ op = 1#4 ∨ op = 2#4 ∨ op = 3#4 ∨ op = 4#4 ∨ op = 5#4 ∨ op = 6#4 ∨ op = 7#4 ∨ 8 ≤ op.toNat := by
  revert op; decide

/-! ## Decoding what the encoder builds -/

section
variable {p : Config} {i : Instr}

/-- A well-formed request's word gives it back (R78 to R86). -/
theorem decode_encode_hostReq (hv : p.valid = true) (hf : i.format = .hostReq) (hi : i.wellFormed p = true) :
    decode p (encode p i) = .ok i := by
  cases i <;> simp only [Instr.format, reduceCtorEq] at hf
  case encode e len =>
    have he : e < p.nEnc := of_decide_eq_true hi
    simp [encode, decode, decodeHost_encode, ifReservedZero, forEngine, Config.engineField_toNat hv he, he]
  case decode maxlen => exact decodeHost_decode p 0#8 0#4 0#8 maxlen
  case cancel => exact decodeHost_cancel p 0#8 0#4 0#8 0#8
  case writeIbuf e j v =>
    obtain ⟨he, hj⟩ : e < p.nEnc ∧ j < 128 :=
      (Bool.and_eq_true_iff.1 hi).imp of_decide_eq_true of_decide_eq_true
    have hjn : (BitVec.ofNat 8 j).toNat = j := octet_ofNat_toNat (by omega)
    have hmsb : (BitVec.ofNat 8 j).msb = false := BitVec.msb_eq_false_iff_two_mul_lt.2 (by omega)
    simp [encode, decode, decodeHost_writeIbuf, ifReservedZero, forEngine, Config.engineField_toNat hv he, he, hmsb,
      hjn]
  case readObuf j =>
    have hj : j < 255 := of_decide_eq_true hi
    have hjn : (BitVec.ofNat 8 j).toNat = j := octet_ofNat_toNat (by omega)
    have hne : BitVec.ofNat 8 j ≠ 0xFF#8 := fun h => by bv_omega
    simp [encode, decode, decodeHost_readObuf, ifReservedZero, hne, hjn]
  case readStatusEnc e =>
    have he : e < p.nEnc := of_decide_eq_true hi
    simp [encode, decode, decodeHost_readStatusEnc, ifReservedZero, forEngine, Config.engineField_toNat hv he, he]
  case readStatusDec => exact decodeHost_readStatusDec p 0#8 0#4 0#8 0#8
  case reservedOp7 rest =>
    rw [encode, decode, decodeHost_reservedOp7 p (extractLsb'_append_high ..), extractLsb'_append_low]
  case reservedOp8ToF rest =>
    have hmsb : (BitVec.extractLsb' 28 4 (1#1 ++ rest)).msb = true := by
      rw [BitVec.msb_eq_getLsbD_last, BitVec.getLsbD_extractLsb', BitVec.getLsbD_append]
      rfl
    rw [encode, decode, decodeHost_reservedOp8ToF p (BitVec.toNat_ge_of_msb_true hmsb), extractLsb'_append_low]

/-- A well-formed engine step's word, beside its engine and the lock's answer, gives it back (R89). -/
theorem decode_encode_encSel (hv : p.valid = true) (hf : i.format = .encSel) (hi : i.wellFormed p = true) :
    decode p (encode p i) = .ok i := by
  cases i <;> simp only [Instr.format, reduceCtorEq] at hf
  case encBodyEscEnd e =>
    have he : e < p.nEnc := of_decide_eq_true hi
    exact (decodeEnc_encWord p he ..).trans (if_pos rfl)
  case encBodyEscEsc e =>
    have he : e < p.nEnc := of_decide_eq_true hi
    exact (decodeEnc_encWord p he ..).trans ((if_neg (Config.esc_ne_end hv)).trans (if_pos rfl))
  case encBodyLit e b =>
    obtain ⟨⟨he, hEnd⟩, hEsc⟩ : (e < p.nEnc ∧ b ≠ p.octets.endOctet) ∧ b ≠ p.octets.escOctet := by
      simpa [Instr.wellFormed] using hi
    exact (decodeEnc_encWord p he ..).trans ((if_neg hEnd).trans (if_neg hEsc))
  all_goals rw [encode, decode, decodeEnc_encWord p (of_decide_eq_true hi), decodeEncPhase]

/-- A well-formed decoder step's word gives it back (R88). -/
theorem decode_encode_decSel (hv : p.valid = true) (hf : i.format = .decSel) (hi : i.wellFormed p = true) :
    decode p (encode p i) = .ok i := by
  cases i <;> simp only [Instr.format, reduceCtorEq] at hf
  case decAsStart => exact (decodeDec_decWord ..).trans (if_pos rfl)
  case decAsOther c => exact (decodeDec_decWord ..).trans (if_neg (bne_iff_ne.1 hi))
  case decRsAny c => exact decodeDec_decWord ..
  case decRbEnd => exact (decodeDec_decWord ..).trans (if_pos rfl)
  case decRbEsc => exact (decodeDec_decWord ..).trans ((if_neg (Config.esc_ne_end hv)).trans (if_pos rfl))
  case decRbData c =>
    obtain ⟨hEnd, hEsc⟩ : c ≠ p.octets.endOctet ∧ c ≠ p.octets.escOctet := by simpa [Instr.wellFormed] using hi
    exact (decodeDec_decWord ..).trans ((if_neg hEnd).trans (if_neg hEsc))
  case decBeEscEnd => exact (decodeDec_decWord ..).trans (if_pos rfl)
  case decBeEscEsc => exact (decodeDec_decWord ..).trans ((if_neg (Config.escEsc_ne_escEnd hv)).trans (if_pos rfl))
  case decBeBad c =>
    obtain ⟨hEnd, hEsc⟩ : c ≠ p.octets.escEnd ∧ c ≠ p.octets.escEsc := by simpa [Instr.wellFormed] using hi
    exact (decodeDec_decWord ..).trans ((if_neg hEnd).trans (if_neg hEsc))

/-- A micro-operation's select code, at an accumulator that exists, gives it back (R91). -/
theorem decode_encode_accOp (hf : i.format = .accOp) (hi : i.wellFormed p = true) : decode p (encode p i) = .ok i := by
  cases i <;> simp only [Instr.format, reduceCtorEq] at hf
  all_goals exact if_pos hi

end

/-- Settles O26: format by format, the fields of the word the encoder builds are the instruction's operands, and K2, K3
and the range of `N_ENC` keep the rows apart. -/
theorem decodeOfEncode : Obligations.DecodeOfEncode := by
  intro p i hv hi
  cases hf : i.format with
  | hostReq => exact decode_encode_hostReq hv hf hi
  | encSel => exact decode_encode_encSel hv hf hi
  | decSel => exact decode_encode_decSel hv hf hi
  | accOp => exact decode_encode_accOp hf hi
  | linkEvent =>
    cases i <;> simp only [Instr.format, reduceCtorEq] at hf
    rfl

/-- Settles O27: the masks and matches are conditions on the five fields; on each op they are the request decoder's. -/
theorem hostWordsFollowMasks : Obligations.HostWordsFollowMasks := by
  intro p w
  rw [← hostWord_fields w]
  generalize w.extractLsb' 28 4 = op, w.extractLsb' 20 8 = f27, w.extractLsb' 16 4 = f19, w.extractLsb' 8 8 = f15,
    w.extractLsb' 0 8 = f7
  simp only [decode, hostWord_f27, hostWord_f15, hostWord_f7, hostWord_and_eq_iff, hostWord_eq_iff,
    BitVec.reduceExtractLsb', and_0xF, and_0xFF, and_0x80_eq_zero_iff, and_0x8_eq_iff, BitVec.and_zero,
    true_and, and_true]
  rcases hostOp_cases op with rfl | rfl | rfl | rfl | rfl | rfl | rfl | rfl | h
  · simp [decodeHost_encode, ifReservedZero, forEngine]
  · simp [decodeHost_decode, ifReservedZero, and_assoc]
  · simp [decodeHost_cancel, ifReservedZero, and_assoc]
  · simp [decodeHost_writeIbuf, ifReservedZero, forEngine]
  · simp [decodeHost_readObuf, ifReservedZero, and_assoc]
  · simp [decodeHost_readStatusEnc, ifReservedZero, forEngine, and_assoc]
  · simp [decodeHost_readStatusDec, ifReservedZero, and_assoc]
  · simp [decodeHost_reservedOp7]
  · have hne : ∀ k : BitVec 4, k.toNat < 8 → op ≠ k := by rintro k hk rfl; omega
    simp [decodeHost_reservedOp8ToF, h, hne]

/-- Settles O28: the words' fields are the phase and the octet, and the phase decoders test the classes in order. -/
theorem selectWordsFollowTheClasses : Obligations.SelectWordsFollowTheClasses := by
  intro p c e d he
  refine ⟨(decodeDec_decWord ..).trans ?_, decodeDec_decWord .., (decodeDec_decWord ..).trans ?_,
    (decodeDec_decWord ..).trans ?_, (decodeEnc_encWord p he ..).trans ?_⟩
  all_goals simp only [decodeDecPhase, decodeEncPhase, apply_ite Except.ok]

/-- Settles O29: eight words are those the encoder builds (O26); in the ninth, engine 2 is not below `N_ENC`. -/
theorem sampleWordsDecode : Obligations.SampleWordsDecode :=
  ⟨decodeOfEncode Config.ref (.encode 1 4#8) rfl rfl, decodeOfEncode Config.ref (.decode 0xFF#8) rfl rfl,
    decodeOfEncode Config.ref (.writeIbuf 1 127 0xFF#8) rfl rfl, decodeOfEncode Config.ref (.readObuf 1) rfl rfl,
    decodeOfEncode Config.ref (.readStatusEnc 1) rfl rfl, decodeHost_encode Config.ref 2#8 0#4 0#8 4#8,
    decodeOfEncode Config.ref (.encBodyEscEnd 1) rfl rfl, decodeOfEncode Config.ref .decBeEscEsc rfl rfl,
    decodeOfEncode Config.ref (.accFold .dec) rfl rfl⟩

end Sys2Proof

/-! Refused configurations, the reserved requests, the status codes, and the length of a frame. -/
namespace Sys2Proof.Machine

/-- Settles O32: a legal configuration's step answers a next state or the model's fault, never a refusal. -/
theorem stepRefusesExactlyBadConfigurations : Obligations.StepRefusesExactlyBadConfigurations := by
  intro s
  refine Iff.trans ?_ (not_congr s.config.valid_iff)
  constructor
  · rintro ⟨r, hr⟩ hv
    rcases step_outcome hv with ⟨t, ht⟩ | ⟨hf, -⟩
    · rw [ht] at hr; cases hr
    · rw [hf] at hr; cases hr
  · exact fun hv => ⟨.badConfiguration, if_neg hv⟩

/-- Settles O8: both rows are the refusal, whatever the word's other bits. -/
theorem reservedOpsOnlySetRefused : Obligations.ReservedOpsOnlySetRefused :=
  fun _ _ _ => ⟨rfl, rfl⟩

/-- Settles O9: the codes of R87, one by one. -/
theorem statusCodesAreNumbered : Obligations.StatusCodesAreNumbered :=
  ⟨rfl, rfl, rfl, rfl, rfl, rfl, rfl, rfl⟩

/-! ## The length of a frame (R75) -/

section
variable (o : ControlOctets) (P : List Byte)

theorem stuff_length (c : Byte) :
    (stuff o c).length = 1 + if c == o.endOctet || c == o.escOctet then 1 else 0 := by
  unfold stuff
  split
  · next hEnd => simp [hEnd]
  · next hEnd =>
    split
    · next hEsc => simp [hEsc]
    · next hEsc => simp [hEnd, hEsc]

theorem stuffAll_length : (stuffAll o P).length = P.length + escapedCount o P := by
  induction P with
  | nil => rfl
  | cons c P ih =>
    have hcons : stuffAll o (c :: P) = stuff o c ++ stuffAll o P := rfl
    rw [hcons, List.length_append, ih, stuff_length, escapedCount, escapedCount, List.countP_cons, List.length_cons]
    omega

theorem frame_length : (frame o P).length = 5 + P.length + escapedCount o P := by
  simp only [frame, List.length_append, List.length_cons, List.length_nil, stuffAll_length]
  omega

theorem escapedCount_le_length : escapedCount o P ≤ P.length := List.countP_le_length

theorem escapedCount_eq_length_iff :
    escapedCount o P = P.length ↔ ∀ c ∈ P, c = o.endOctet ∨ c = o.escOctet := by
  simp [escapedCount, List.countP_eq_length]

end

/-- Settles O58: a stuffed byte is one octet, or two if it is escaped. -/
theorem frameLength : Obligations.FrameLength := by
  intro o P
  have hlen := frame_length o P
  have hle := escapedCount_le_length o P
  refine ⟨hlen, ?empty, ?range, ?full⟩
  case empty => rintro rfl; rfl
  case range => omega
  case full =>
    intro h128 hall
    have hfull := (escapedCount_eq_length_iff o P).2 hall
    omega

end Sys2Proof.Machine

/-! The host requests (40_commands.md): each request's next state case by case, what every request leaves alone, and
the results that a busy engine shows. -/
namespace Sys2Proof.Machine

variable {s t : State} {i : Instr} {o : ControlOctets} {e f : Nat} {l l' : Lock} {E E' : Encoder}
  {D D' : Decoder} {m m' : Memory} {w : Option MicroOp}

/-! ## Busy and idle (R12) -/

theorem Encoder.busy_iff : E.busy = true ↔ E.phase ≠ .idle := bne_iff_ne

theorem Decoder.busy_iff : D.busy = true ↔ D.phase ≠ .idle := bne_iff_ne

theorem Encoder.not_busy (h : E.phase = .idle) : ¬E.busy = true := fun hb => Encoder.busy_iff.1 hb h

theorem Decoder.not_busy (h : D.phase = .idle) : ¬D.busy = true := fun hb => Decoder.busy_iff.1 hb h

/-! ## While an engine is busy its result reads NONE and not done (R106, R107) -/

/-- One engine's share of `State.ResultInv`. -/
def Encoder.ResultInv (E : Encoder) : Prop := E.busy = true → E.done = false ∧ E.status = .none

/-- The decoder's share of `State.ResultInv`. -/
def Decoder.ResultInv (D : Decoder) : Prop := D.busy = true → D.done = false ∧ D.status = .none ∧ D.rlen = 0#8

theorem State.resultInv_iff (s : State) : s.ResultInv ↔ (∀ E ∈ s.encs, E.ResultInv) ∧ s.dec.ResultInv := Iff.rfl

theorem Encoder.resultInv_of_idle (h : E.phase = .idle) : E.ResultInv := fun hb => absurd hb (Encoder.not_busy h)

theorem Decoder.resultInv_of_idle (h : D.phase = .idle) : D.ResultInv := fun hb => absurd hb (Decoder.not_busy h)

theorem EncMove.busy {out : List Byte} (h : EncMove o e l E l' E' out) : E.busy = true := by
  rw [Encoder.busy_iff]
  cases h with
  | acqOk h | acqWait h | acqFail h | flush h | start h | size h | escEnd h | escEsc h | lit h | esc2 h | chk h
    | endMark h | rel _ h => simp [h]

theorem DecMove.busy {c : Byte} (h : DecMove o c D m D' m') : D.busy = true := by
  rw [Decoder.busy_iff]
  cases h with
  | asStart h | asOther h | rsAny h | rbEndOk h | rbEndBad h | rbEsc h | rbData h | beEscEnd h | beEscEsc h
    | beBad h => simp [h]

/-- A move ends the command, or leaves the result alone. -/
theorem EncMove.result_cases {out : List Byte} (h : EncMove o e l E l' E' out) :
    E'.phase = .idle ∨ (E'.done = E.done ∧ E'.status = E.status) := by
  cases h with
  | acqFail | rel => exact .inl rfl
  | acqOk | acqWait | flush | start | size | escEnd | escEsc | lit | esc2 | chk | endMark => exact .inr ⟨rfl, rfl⟩

theorem Committed.result_eq {d : Byte} (h : Committed d D m D' m') :
    D'.done = D.done ∧ D'.status = D.status ∧ D'.rlen = D.rlen := by
  cases h <;> exact ⟨rfl, rfl, rfl⟩

/-- A move ends the command, or leaves the result alone. -/
theorem DecMove.result_cases {c : Byte} (h : DecMove o c D m D' m') :
    D'.phase = .idle ∨ (D'.done = D.done ∧ D'.status = D.status ∧ D'.rlen = D.rlen) := by
  cases h with
  | rbEndOk | rbEndBad | beBad => exact .inl rfl
  | rbData _ _ _ hc | beEscEnd _ hc | beEscEsc _ hc => exact .inr hc.result_eq
  | asStart | asOther | rsAny | rbEsc => exact .inr ⟨rfl, rfl, rfl⟩

theorem EngineChange.keeps_resultInv (h : EngineChange o e l E l' E') (hinv : E.ResultInv) : E'.ResultInv := by
  cases h with
  | move h =>
    rcases h.result_cases with hidle | ⟨hdone, hstatus⟩
    · exact Encoder.resultInv_of_idle hidle
    · intro _
      rw [hdone, hstatus]
      exact hinv h.busy
  | encode => exact fun _ => ⟨rfl, rfl⟩
  | tooLarge h => exact Encoder.resultInv_of_idle h
  | writeIbuf | acc => exact hinv

theorem DecoderChange.keeps_resultInv (h : DecoderChange o w D m D' m') (hinv : D.ResultInv) : D'.ResultInv := by
  cases h with
  | move h =>
    rcases h.result_cases with hidle | ⟨hdone, hstatus, hrlen⟩
    · exact Decoder.resultInv_of_idle hidle
    · intro _
      rw [hdone, hstatus, hrlen]
      exact hinv h.busy
  | decode => exact fun _ => ⟨rfl, rfl, rfl⟩
  | cancel => exact Decoder.resultInv_of_idle rfl
  | same | acc => exact hinv

/-- Settles O41: ENCODE and DECODE clear the result, and a busy engine's result changes only as its command ends. -/
theorem stepKeepsBusyResults : Obligations.StepKeepsBusyResults := by
  intro s t hinv h
  obtain ⟨hencs, hdec⟩ := (State.resultInv_iff s).1 hinv
  refine (State.resultInv_iff t).2
    ⟨step_keeps_engines (Encoder.resultInv_of_idle rfl) EngineChange.keeps_resultInv hencs h, ?_⟩
  obtain ⟨_, dr, pe, rfl⟩ | hc := step_change h
  · exact Decoder.resultInv_of_idle rfl
  · exact hc.decoder.keeps_resultInv hdec

/-! ## What a request leaves alone -/

/-- A request moves no lock and no port, and writes no octet of OBUF. -/
theorem ReqMove.frame (h : ReqMove i s t) : t.lock = s.lock ∧ t.txlog = s.txlog ∧ t.rxq = s.rxq ∧ t.obuf = s.obuf
    ∧ t.accOut = s.accOut ∧ t.ctl = s.ctl := by
  cases h <;> exact ⟨rfl, rfl, rfl, rfl, rfl, rfl⟩

theorem ReqMove.dec_eq (h : ReqMove i s t) (hdecode : ∀ m, i ≠ .decode m) (hcancel : i ≠ .cancel) : t.dec = s.dec := by
  cases h with
  | decode hi => exact absurd hi (hdecode _)
  | cancel hi => exact absurd hi hcancel
  | refused | fault | tooLarge | encode | writeIbuf | answer => rfl

/-- What request `i` can make of engine `f`: nothing; by an ENCODE that names it, other registers and the same buffer;
by a WRITE_IBUF that names it, one byte of its buffer. -/
inductive ReqEngine (i : Instr) (f : Nat) (E : Encoder) : Encoder → Prop
  | same : ReqEngine i f E E
  | encode {len E'} (hi : i = .encode f len) (hbuf : E'.ibuf = E.ibuf) : ReqEngine i f E E'
  | writeIbuf {j v} (hi : i = .writeIbuf f j v) : ReqEngine i f E { E with ibuf := E.ibuf.write j v }

/-- A request changes no engine, or one that exists, as `ReqEngine` says. -/
theorem ReqMove.encs_cases (h : ReqMove i s t) :
    t.encs = s.encs ∨ ∃ e E E', s.encs[e]? = some E ∧ t.encs = s.encs.set e E' ∧ ReqEngine i e E E' := by
  cases h with
  | tooLarge hi hE | encode hi hE => exact .inr ⟨_, _, _, hE, rfl, .encode hi rfl⟩
  | writeIbuf hi hE => exact .inr ⟨_, _, _, hE, rfl, .writeIbuf hi⟩
  | refused | fault | decode | cancel | answer => exact .inl rfl

theorem ReqMove.nEnc_eq (h : ReqMove i s t) : t.encs.length = s.encs.length := by
  obtain hes | ⟨e, E, E', _, hes, _⟩ := h.encs_cases <;> simp [hes]

theorem ReqMove.reqEngine (h : ReqMove i s t) (hE : s.encs[f]? = some E) (hE' : t.encs[f]? = some E') :
    ReqEngine i f E E' := by
  obtain hes | ⟨e, F, F', hF, hes, hch⟩ := h.encs_cases <;> rw [hes] at hE'
  · obtain rfl : E = E' := Option.some.inj (hE.symm.trans hE')
    exact .same
  · by_cases hfe : e = f
    · subst hfe
      rw [List.getElem?_set_self (State.lt_of_enc hE)] at hE'
      obtain rfl : F = E := Option.some.inj (hF.symm.trans hE)
      cases hE'
      exact hch
    · rw [List.getElem?_set_ne hfe] at hE'
      obtain rfl : E = E' := Option.some.inj (hE.symm.trans hE')
      exact .same

/-- Only WRITE_IBUF changes a byte of a buffer, the one it names (R104). -/
theorem ReqEngine.read_eq {a : Nat} (h : ReqEngine i f E E') (hi : ∀ v, i ≠ .writeIbuf f a v) :
    E'.ibuf.read a = E.ibuf.read a := by
  cases h with
  | same => rfl
  | encode _ hbuf => rw [hbuf]
  | writeIbuf hj => exact Memory.read_write_of_ne _ _ fun h => hi _ (h ▸ hj)

/-- Only ENCODE changes a register of an engine, the one it names (R101). -/
theorem ReqEngine.registers_eq (h : ReqEngine i f E E') (hi : ∀ len, i ≠ .encode f len) :
    { E' with ibuf := E.ibuf } = E := by
  cases h with
  | encode hlen => exact absurd hlen (hi _)
  | same | writeIbuf => rfl

/-- Settles O49: from what each request can do, component by component. -/
theorem hostRequestFrame : Obligations.HostRequestFrame := by
  intro i s t hi h
  have hmove := exec_req_next hi h
  obtain ⟨hlock, htx, hrxq, hobuf, haccOut, hctl⟩ := hmove.frame
  exact ⟨hlock, htx, hrxq, fun a => by rw [hobuf], haccOut, hctl, hmove.nEnc_eq,
    fun _ _ _ _ hE hE' => (hmove.reqEngine hE hE').read_eq,
    fun _ _ _ hE hE' => (hmove.reqEngine hE hE').registers_eq, hmove.dec_eq⟩

/-! ## Reserved bits (R77, R86) -/

/-- A row whose decoder first asks `zero` of the fields refuses every word of its op with a reserved bit set, if `zero`
means that no reserved bit is set. -/
theorem State.refusesReserved_of_decodeHost {op : BitVec 4} {reserved : Word}
    {zero : Byte → BitVec 4 → Byte → Byte → Bool} {r : Byte → BitVec 4 → Byte → Byte → Except Reject Instr}
    (hdec : ∀ f27 f19 f15 f7, decodeHost s.config (hostWord op f27 f19 f15 f7)
      = ifReservedZero (zero f27 f19 f15 f7) (r f27 f19 f15 f7))
    (hzero : ∀ f27 f19 f15 f7, zero f27 f19 f15 f7 = true → hostWord op f27 f19 f15 f7 &&& reserved = 0#32) :
    s.refusesReserved (hostWord op 0#8 0#4 0#8 0#8) reserved := by
  intro w hop hres
  rw [← hostWord_fields w] at hop hres ⊢
  generalize w.extractLsb' 28 4 = op', w.extractLsb' 20 8 = f27, w.extractLsb' 16 4 = f19, w.extractLsb' 8 8 = f15,
    w.extractLsb' 0 8 = f7 at hop hres ⊢
  obtain rfl : op' = op := by
    obtain ⟨hop, -⟩ := (hostWord_and_eq_iff ..).1 hop
    simpa [and_0xF] using hop
  have hz : zero f27 f19 f15 f7 = false := Bool.eq_false_iff.2 fun hz => hres (hzero _ _ _ _ hz)
  have herr : decode s.config (.host (hostWord op' f27 f19 f15 f7)) = .error .reservedBits := by
    rw [decode, hdec, hz]
    rfl
  exact State.runFetched_error herr

/-! ## The requests, case by case -/

theorem Encoder.finish_of_idle (h : E.phase = .idle) (k : Status) : E.finish k = { E with status := k, done := true } := by
  rw [Encoder.finish, ← h]

/-- Settles O1: the branches of ENCODE (R101), and its reserved bits [19:8]. -/
theorem encodeStartsEngineOrRejects : Obligations.EncodeStartsEngineOrRejects := by
  intro s e len
  refine ⟨?starts, ?tooLarge, ?busy, ?noEngine, ?reserved⟩
  case starts =>
    intro E hE hp hl
    refine (State.forEnc_eq hE).trans ((if_neg (Encoder.not_busy hp)).trans ?_)
    have hl : ¬Config.maxPayload < len.toNat := Nat.not_lt.2 hl
    dsimp only
    rw [if_neg hl]
    rfl
  case tooLarge =>
    intro E hE hp hl
    refine (State.forEnc_eq hE).trans ((if_neg (Encoder.not_busy hp)).trans ?_)
    have hl : Config.maxPayload < len.toNat := hl
    dsimp only
    rw [if_pos hl, Encoder.finish_of_idle (E := { E with done := false, status := .none }) hp]
    rfl
  case busy =>
    intro E hE hp
    exact (State.forEnc_eq hE).trans (if_pos (Encoder.busy_iff.2 hp))
  case noEngine => exact fun he => State.forEnc_refused (List.getElem?_eq_none_iff.1 he)
  case reserved =>
    refine State.refusesReserved_of_decodeHost (decodeHost_encode s.config) fun f27 f19 f15 f7 hz => ?_
    simpa [hostWord_and_eq_iff, and_0xF, and_0xFF] using hz

/-- Settles O2: the branches of DECODE (R102), and its reserved bits [27:8]. -/
theorem decodeReinitialisesDecoder : Obligations.DecodeReinitialisesDecoder := by
  intro s maxlen
  refine ⟨fun hp => if_neg (Decoder.not_busy hp), fun hp => if_pos (Decoder.busy_iff.2 hp), ?reserved⟩
  case reserved =>
    refine State.refusesReserved_of_decodeHost (decodeHost_decode s.config) fun f27 f19 f15 f7 hz => ?_
    simpa [hostWord_and_eq_iff, and_0xF, and_0xFF, and_assoc] using hz

/-- CANCEL's test (R103): the decoder waits for an octet. -/
theorem State.waits_iff : (s.dec.busy && s.rxq.isEmpty) = true ↔ s.dec.phase ≠ .idle ∧ s.rxq = [] := by
  rw [Bool.and_eq_true, Decoder.busy_iff, List.isEmpty_iff]

/-- Settles O3: the two branches of CANCEL (R103). -/
theorem cancelOnlyAtTheWait : Obligations.CancelOnlyAtTheWait := by
  intro s
  refine ⟨fun hp hq => if_pos (State.waits_iff.2 ⟨hp, hq⟩), fun hwait => if_neg fun h => ?_⟩
  obtain ⟨hp, hq⟩ := State.waits_iff.1 h
  exact hwait.elim hp (· hq)

/-- Settles O4: the branches of WRITE_IBUF (R104), the buffer after the write, and the reserved bits [19:15]. -/
theorem writeIbufStoresOneByte : Obligations.WriteIbufStoresOneByte := by
  intro s e i v
  refine ⟨?stores, ?busy, ?refused, ?reserved⟩
  case stores =>
    intro E hi hE hp
    refine ⟨E.ibuf.write i v, ?_, Memory.read_write_same .., fun k hk => Memory.read_write_of_ne _ v hk.symm⟩
    exact (if_pos hi).trans ((State.forEnc_eq hE).trans (if_neg (Encoder.not_busy hp)))
  case busy =>
    intro E hi hE hp
    exact (if_pos hi).trans ((State.forEnc_eq hE).trans (if_pos (Encoder.busy_iff.2 hp)))
  case refused =>
    intro h
    by_cases hi : i < Config.ibufCap
    · have he := h.resolve_left (Nat.not_le.2 hi)
      exact (if_pos hi).trans (State.forEnc_refused (List.getElem?_eq_none_iff.1 he))
    · exact if_neg hi
  case reserved =>
    refine State.refusesReserved_of_decodeHost (decodeHost_writeIbuf s.config) fun f27 f19 f15 f7 hz => ?_
    simpa [hostWord_and_eq_iff, and_0xF, and_0x80_eq_zero_iff] using hz

/-- READ_OBUF of the idle decoder, of a good result's octet below `rlen` (R105). -/
theorem execReadObuf_stored {j : Nat} {v : Byte} (hj : j < Config.obufCap) (hp : s.dec.phase = .idle)
    (h : (if s.dec.status = .ok ∧ j < s.dec.rlen.toNat then s.obuf.read j else none) = some v) :
    execReadObuf j s = .next (s.respond (v.setWidth 32)) := by
  rw [execReadObuf, if_pos hj, if_neg (Decoder.not_busy hp), h]

/-- READ_OBUF of the idle decoder, where there is no such octet (R105). -/
theorem execReadObuf_drawn {j : Nat} (hj : j < Config.obufCap) (hp : s.dec.phase = .idle)
    (h : (if s.dec.status = .ok ∧ j < s.dec.rlen.toNat then s.obuf.read j else none) = none) :
    execReadObuf j s = .next (s.drawByte.2.respond (s.drawByte.1.setWidth 32)) := by
  rw [execReadObuf, if_pos hj, if_neg (Decoder.not_busy hp), h]

/-- Settles O5: the branches of READ_OBUF (R105). -/
theorem readObufAnswersGoodResultOrDraw : Obligations.ReadObufAnswersGoodResultOrDraw := by
  intro s i hi
  refine ⟨?good, ?draw, ?busy, ?refused⟩
  case good => exact fun v hp hok hlt hv => execReadObuf_stored hi hp ((if_pos ⟨hok, hlt⟩).trans hv)
  case draw =>
    intro hp hbad
    refine ⟨Config.freeByte s.draws, s.draws + 1, execReadObuf_drawn hi hp (ite_eq_right_iff.2 ?_)⟩
    rintro ⟨hok, hlt⟩
    rcases hbad with hstatus | hrlen | hnone
    · exact absurd hok hstatus
    · exact absurd hlt (Nat.not_lt.2 hrlen)
    · exact hnone
  case busy => exact fun hp => (if_pos hi).trans (if_pos (Decoder.busy_iff.2 hp))
  case refused => rfl

/-- A concatenation as a number: the low part below `2 ^ n`, the high part above. -/
theorem append_toNat {k n : Nat} (x : BitVec k) (y : BitVec n) : (x ++ y).toNat = x.toNat * 2 ^ n + y.toNat := by
  rw [BitVec.toNat_append, ← Nat.shiftLeft_add_eq_or_of_lt y.isLt, Nat.shiftLeft_eq]

/-- The fields of R85, as one number. -/
theorem statusWord_eq_ofNat (done : Bool) (rlen : Byte) (status : Status) :
    statusWord done rlen status
      = BitVec.ofNat 32 (done.toNat * 2 ^ 16 + rlen.toNat * 2 ^ 8 + status.code.toNat) := by
  have hd : done.toNat ≤ 1 := done.toNat_le
  have hr := rlen.isLt
  have hs := status.code.isLt
  apply BitVec.eq_of_toNat_eq
  simp only [statusWord, append_toNat, BitVec.toNat_ofNat, BitVec.toNat_ofBool]
  omega

/-- Settles O6: the status word's `rlen` field is 0 (R85, R106), and the reserved bits are [19:0]. -/
theorem readStatusEncAnswersStatusWord : Obligations.ReadStatusEncAnswersStatusWord := by
  intro s e
  refine ⟨?answers, ?noEngine, ?reserved⟩
  case answers =>
    intro E hE
    have hword := statusWord_eq_ofNat E.done 0#8 E.status
    rw [BitVec.toNat_zero, Nat.zero_mul, Nat.add_zero] at hword
    rw [← hword]
    exact State.forEnc_eq hE
  case noEngine => exact fun he => State.forEnc_refused (List.getElem?_eq_none_iff.1 he)
  case reserved =>
    refine State.refusesReserved_of_decodeHost (decodeHost_readStatusEnc s.config) fun f27 f19 f15 f7 hz => ?_
    simpa [hostWord_and_eq_iff, and_0xF, and_0xFF, and_assoc] using hz

/-- Settles O7: the status word (R85, R107), and the reserved bits [27:0]. -/
theorem readStatusDecAnswersStatusWord : Obligations.ReadStatusDecAnswersStatusWord := by
  intro s
  refine ⟨?answers, ?reserved⟩
  case answers =>
    rw [← statusWord_eq_ofNat]
    rfl
  case reserved =>
    refine State.refusesReserved_of_decodeHost (decodeHost_readStatusDec s.config) fun f27 f19 f15 f7 hz => ?_
    simpa [hostWord_and_eq_iff, and_0xF, and_0xFF, and_assoc] using hz

/-- Settles O25: the row is the delivery, in every state (R108). -/
theorem linkDeliverAppends : Obligations.LinkDeliverAppends := fun _ _ => rfl

end Sys2Proof.Machine

/-! The encoder's steps (41_encoder.md): each row's next state, what an engine's step leaves alone, the lock as the
licence to emit, the encode as a whole (`frame(P)` in `7 + len + E` steps), and where END and ESC stand in a frame. -/
namespace Sys2Proof.Machine

variable {s t u : State} {i : Instr} {o : ControlOctets} {e : Nat} {d : LockDraw} {l l' : Lock} {E E' : Encoder}
  {b : Byte} {out P pre : List Byte}

/-! ## The rows, one by one -/

/-- `+8` of R192 as a number. -/
theorem Acc.add_eq_ofNat (acc b : Byte) : Acc.add acc b = BitVec.ofNat 8 ((acc.toNat + b.toNat) % 256) := by
  apply BitVec.eq_of_toNat_eq
  rw [Acc.add, BitVec.toNat_add, BitVec.toNat_ofNat, Nat.mod_mod]

/-- FOLD of R193 as a number. -/
theorem Acc.fold_eq_ofNat (acc : Byte) : Acc.fold acc = BitVec.ofNat 8 (acc.toNat % 128) := by
  apply BitVec.eq_of_toNat_eq
  rw [Acc.fold_toNat, octet_ofNat_toNat (by omega)]

/-- Settles O10: the two answers of the lock, OK split on whether it is FREE (R121). -/
theorem encAcqTakesFreeLockWaitsOrFails : Obligations.EncAcqTakesFreeLockWaitsOrFails := by
  intro s e E hE hp
  refine ⟨fun hl => ?free, fun hl => ?taken, State.atPhase_eq hE hp⟩
  case free =>
    have hacq : s.lock.acquire e = some (.held e) := (Lock.acquire_eq_some_iff ..).2 ⟨hl, rfl⟩
    refine (State.atPhase_eq hE hp).trans ?_
    dsimp only
    rw [hacq]
    rfl
  case taken =>
    have hacq : s.lock.acquire e = none := (Lock.acquire_eq_none_iff ..).2 hl
    refine (State.atPhase_eq hE hp).trans ?_
    dsimp only
    rw [hacq]

/-- Settles O11: the three rows emit a fixed octet and move on (R122, R123, R130). -/
theorem encControlStepsEmitTheirOctet : Obligations.EncControlStepsEmitTheirOctet :=
  fun _ _ _ hE => ⟨State.atPhase_eq hE, State.atPhase_eq hE, State.atPhase_eq hE⟩

/-- Settles O12: the row's next phase, split on the length (R124). -/
theorem encSizeEmitsLength : Obligations.EncSizeEmitsLength := by
  intro s e E hE hp
  constructor <;> intro hlen <;> refine (State.atPhase_eq hE hp).trans ?_
  · rw [if_pos hlen]
    rfl
  · rw [if_neg hlen]
    rfl

/-- Settles O13: the byte is one IBUF can hold, and of the class that is sent bare (R125). -/
theorem encBodyLitEmitsTheByte : Obligations.EncBodyLitEmitsTheByte := by
  intro s e E b hE hp hread hEnd hEsc
  have hb : E.holds b = true := (Encoder.holds_iff b).2 hread.symm
  rw [← Acc.add_eq_ofNat]
  exact (State.atByte_eq hE hp hb).trans (if_neg (not_or.2 ⟨hEnd, hEsc⟩))

/-- Settles O14: the byte is one IBUF can hold; both rows are the shared escape (R126, R127). -/
theorem encBodyEscapesControlBytes : Obligations.EncBodyEscapesControlBytes := by
  intro s e E hE hp
  refine ⟨fun hread => ?_, fun hread => ?_⟩ <;> rw [← Acc.add_eq_ofNat] <;>
    exact State.atByte_eq hE hp ((Encoder.holds_iff _).2 hread.symm)

/-- Settles O15: the substitute code without a sum (R128), and FOLD of the sum (R129). -/
theorem encEsc2AndChkEmit : Obligations.EncEsc2AndChkEmit := by
  intro s e E hE
  refine ⟨State.atPhase_eq hE, fun hp => ?chk⟩
  case chk =>
    rw [← Acc.fold_eq_ofNat]
    exact State.atPhase_eq hE hp

/-- Settles O16: the three answers of the lock (R131). -/
theorem encRelReleasesOrFails : Obligations.EncRelReleasesOrFails :=
  fun _ _ _ hE hp => ⟨State.atPhase_eq hE hp, State.atPhase_eq hE hp, State.atPhase_eq hE hp⟩

/-! ## What an engine's step leaves alone -/

theorem EncMove.len_eq (h : EncMove o e l E l' E' out) : E'.len = E.len := by
  cases h <;> rfl

/-- Settles O47: a move writes one engine, the lock and TXLOG only, and of the engine neither length nor buffer. -/
theorem encoderStepFrame : Obligations.EncoderStepFrame := by
  intro i e s t hi h
  obtain ⟨E, l, E', out, hE, hmove, rfl⟩ := exec_enc_next hi h
  refine ⟨fun f hf => List.getElem?_set_ne hf.symm, fun F hF => ?own, rfl, fun _ => rfl, rfl, rfl, rfl, rfl, rfl, rfl⟩
  case own =>
    obtain rfl : E = F := Option.some.inj (hE.symm.trans hF)
    exact ⟨E', List.getElem?_set_self (State.lt_of_enc hE), hmove.len_eq, fun a => by rw [hmove.ibuf_eq]⟩

/-! ## Only the holder of the lock emits (R133) -/

/-- Acquiring and releasing emit nothing; every other move is the lock holder's, keeps the lock and emits one octet. -/
theorem EncMove.out_cases (h : EncMove o e l E l' E' out) :
    (out = [] ∧ (E.phase = .acq ∨ E.phase = .rel))
      ∨ (EncPhase.midFrame E.phase = true ∧ l' = l ∧ ∃ c, out = [c]) := by
  cases h with
  | acqOk h | acqWait h | acqFail h => exact .inl ⟨rfl, .inl h⟩
  | rel _ h => exact .inl ⟨rfl, .inr h⟩
  | flush h | start h | size h | escEnd h | escEsc h | lit h | esc2 h | chk h | endMark h =>
    exact .inr ⟨by rw [h]; rfl, rfl, _, rfl⟩

theorem exec_acc_txlog (hi : i.format = .accOp) (h : exec i u = .next t) : t.txlog = u.txlog := by
  obtain ⟨_, rfl⟩ | ⟨_, rfl⟩ | ⟨_, _, _, _, rfl⟩ := exec_acc_next hi h <;> rfl

/-- TXLOG stays, or the picked engine is mid-frame and appends one octet. -/
theorem exec_chosen_txlog {ev : Event} (h : exec i u = .next t) (hc : Chooses ev i) :
    t.txlog = u.txlog ∨ ∃ e d E c, ev = .enc e d ∧ u.encs[e]? = some E ∧ EncPhase.midFrame E.phase = true
      ∧ t.txlog = u.txlog ++ [c] := by
  cases hc with
  | host hi =>
    obtain ⟨-, htx, -⟩ := (exec_req_next hi h).frame
    exact .inl htx
  | @enc e d _ hi =>
    obtain ⟨E, l, E', out, hE, hmove, rfl⟩ := exec_enc_next hi h
    obtain ⟨rfl, -⟩ | ⟨hmid, -, c, rfl⟩ := hmove.out_cases
    · exact .inl (List.append_nil _)
    · exact .inr ⟨e, d, E, c, rfl, hE, hmid, rfl⟩
  | dec hi =>
    obtain ⟨_, _, _, _, _, _, rfl⟩ := exec_dec_next hi h
    exact .inl rfl
  | link c =>
    cases h
    exact .inl rfl

/-- Settles O45: only a mid-frame engine emits, and by the lock invariant it holds the lock. -/
theorem emitOnlyUnderTheLock : Obligations.EmitOnlyUnderTheLock := by
  intro s t ⟨hiff, _⟩ h hev
  obtain ⟨_, u, ⟨dr, pe, rfl⟩, ⟨_, i, hi, h⟩ | ⟨_, rfl⟩ | ⟨ev, rest, _, hp, rfl | ⟨rfl, _⟩ | ⟨i, h, hc⟩⟩⟩ :=
    step_moves h
  · have htx := exec_acc_txlog hi h
    exact .inl htx
  · exact .inl rfl
  · exact .inl rfl
  · exact absurd (by rw [hp]; rfl) hev
  · obtain htx | ⟨e, d, E, c, rfl, hE, hmid, htx⟩ := exec_chosen_txlog h hc
    · exact .inl htx
    · exact .inr ⟨e, d, rest, c, hp, (hiff e E hE).1 hmid, htx⟩

/-! ## An encode, choice by choice (R132) -/

/-- A choice that is offered before whatever is pending is the one the step takes. -/
theorem State.runEvents_cons {ev : Event} {evs : List Event} (hv : s.config.valid = true) (hm : s.micro = none)
    (h : s.move ev = .next t) : State.runEvents (ev :: evs) s = State.runEvents evs t := by
  have hstep : step { s with pending := ev :: s.pending } = .next t :=
    (step_of_pending_cons (s := { s with pending := ev :: s.pending }) hv hm rfl).trans h
  rw [State.runEvents, hstep]

theorem State.runEvents_append {evs evs' : List Event} (h : State.runEvents evs s = some t) :
    State.runEvents (evs ++ evs') s = State.runEvents evs' t := by
  induction evs generalizing s with
  | nil => cases h; rfl
  | cons ev evs ih =>
    rw [State.runEvents] at h
    rw [List.cons_append, State.runEvents]
    split at h
    · exact ih h
    · cases h
    · cases h

/-- Every phase but IDLE selects a row (R89). -/
theorem decodeEncPhase_ok {p : Config} {ph : EncPhase} (hp : ph ≠ .idle) : ∃ i, decodeEncPhase p e b d ph = .ok i := by
  cases ph with
  | idle => exact absurd rfl hp
  | body =>
    simp only [decodeEncPhase]
    split
    · exact ⟨_, rfl⟩
    · split <;> exact ⟨_, rfl⟩
  | acq | flush | start | size | esc2 | chk | endMark | rel => exact ⟨_, rfl⟩

/-- Outside BODY the phase alone selects the row. -/
theorem State.move_enc_exec (hE : u.encs[e]? = some E) (hp : E.phase ≠ .body)
    (hdec : decodeEncPhase u.config e 0#8 d E.phase = .ok i) : u.move (.enc e d) = exec i u := by
  rw [State.move_enc_of_ne_body hE hp]
  exact State.runFetched_ok ((State.decode_encWord hE ..).trans hdec)

/-- A picked engine that is busy makes one of its moves; beside it only draws change. -/
theorem State.move_enc_encMove (hE : u.encs[e]? = some E) (hp : E.phase ≠ .idle) (d : LockDraw) :
    ∃ k l E' out, EncMove u.ctl e u.lock E l E' out ∧ u.move (.enc e d)
      = .next { u with draws := k, lock := l, encs := u.encs.set e E', txlog := u.txlog ++ out } := by
  obtain ⟨b, k, hf, hb⟩ := State.fetchEnc_holds hE d
  obtain ⟨i, hi⟩ := decodeEncPhase_ok (p := u.config) (e := e) (b := b) (d := d) hp
  obtain ⟨t, ht⟩ := exec_decodeEncPhase (s := { u with draws := k }) hE hb hi
  have hword := State.decode_encWord (u := { u with draws := k }) hE E.phase b d
  have hrow : decode u.config (.enc e (encWord E.phase b) d) = .ok i := hword.trans hi
  obtain ⟨F, l, E', out, hF, hmove, rfl⟩ := exec_enc_next (decodeEnc_engine hrow) ht
  obtain rfl : E = F := Option.some.inj (hE.symm.trans hF)
  refine ⟨k, l, E', out, hmove, ?_⟩
  simp only [State.move, hf]
  exact (State.runFetched_ok (s := { u with draws := k }) hrow).trans ht

/-! ## How much of the frame is sent -/

/-- What is stuffed of the first `n` bytes leaves room for at least one octet per byte still to come. -/
theorem stuffAll_take_length_le (o : ControlOctets) {n : Nat} (hn : n ≤ P.length) :
    (stuffAll o (P.take n)).length + (P.length - n) ≤ (stuffAll o P).length := by
  have hcount : escapedCount o (P.take n) ≤ escapedCount o P := (List.take_sublist n P).countP_le
  rw [stuffAll_length, stuffAll_length, List.length_take]
  omega

theorem Encoder.carries.phase_ne_idle (h : E.carries o P) : E.phase ≠ .idle := by
  obtain ⟨-, hfit⟩ := Encoder.carries_iff.1 h
  intro hp
  rwa [hp] at hfit

theorem Encoder.carries.phase_ne_acq (h : E.carries o P) : E.phase ≠ .acq := by
  obtain ⟨-, hfit⟩ := Encoder.carries_iff.1 h
  intro hp
  rwa [hp] at hfit

/-- In REL the whole frame is sent. -/
theorem Encoder.sent_rel (hp : E.phase = .rel) : E.sent o P = frame o P := by
  rw [Encoder.sent, hp]

/-- Before REL a part of the frame is still to be sent. -/
theorem Encoder.carries.sent_lt (h : E.carries o P) (hp : E.phase ≠ .rel) :
    (E.sent o P).length < (frame o P).length := by
  obtain ⟨⟨_, _, _, hle, _⟩, hfit⟩ := Encoder.carries_iff.1 h
  have hframe : (frame o P).length = 5 + (stuffAll o P).length := by rw [frame_length, stuffAll_length, Nat.add_assoc]
  rw [hframe, Encoder.sent]
  cases hph : E.phase <;> rw [hph] at hfit <;>
    simp only [List.length_append, List.length_cons, List.length_nil]
  case body =>
    have := stuffAll_take_length_le o hle
    omega
  case esc2 =>
    have := stuffAll_take_length_le o (P := P) (n := E.idx.toNat - 1) (by omega)
    omega
  case rel => exact absurd hph hp
  all_goals omega

/-! ## The run -/

/-- Writing one engine leaves the configuration alone. -/
theorem State.config_valid_of_set (hv : s.config.valid = true) (hctl : t.ctl = s.ctl) (hes : t.encs = s.encs.set e E) :
    t.config.valid = true := by
  have hconfig : t.config = s.config := by
    rw [State.config, State.config, State.nEnc_def, State.nEnc_def, hctl, hes, List.length_set]
  rwa [hconfig]

/-- Engine `e` has sent `n` octets of `frame(P)`, in a legal block with no micro-operation waiting. -/
structure State.HasSent (s : State) (o : ControlOctets) (e : Nat) (P pre : List Byte) (n : Nat) : Prop where
  valid : s.config.valid = true
  ctl : s.ctl = o
  micro : s.micro = none
  sending : s.Sending e P pre
  count : s.txlog.length = pre.length + n

/-- The engine in ACQ takes the FREE lock, and has sent nothing. -/
theorem State.hasSent_of_acq (hv : s.config.valid = true) (hm : s.micro = none) (hl : s.lock = .free)
    (hE : s.encs[e]? = some E) (hp : E.phase = .acq) (hd : d.acq = .ok) (hidx : E.idx = 0#8) (hP : E.HasPayload P) :
    ∃ t, s.move (.enc e d) = .next t ∧ t.HasSent s.ctl e P s.txlog 0 := by
  have hdec : decodeEncPhase s.config e 0#8 d E.phase = .ok (.encAcq e .ok) := by rw [hp, ← hd]; rfl
  obtain ⟨hfree, -⟩ := encAcqTakesFreeLockWaitsOrFails s e E hE hp
  refine ⟨_, (State.move_enc_exec hE (by simp [hp]) hdec).trans (hfree hl), ?_⟩
  have hE' : (s.encs.set e { E with phase := .flush })[e]? = some { E with phase := .flush } :=
    List.getElem?_set_self (State.lt_of_enc hE)
  exact {
    valid := State.config_valid_of_set hv rfl rfl
    ctl := rfl
    micro := hm
    sending := ⟨rfl, _, hE', Encoder.carries_iff.2 ⟨hP, hidx⟩, (List.append_nil _).symm⟩
    count := rfl }

/-- While the frame is not complete, a choice of the engine sends its next octet. -/
theorem State.HasSent.move {n : Nat} (h : s.HasSent o e P pre n) (hn : n < (frame o P).length) (d : LockDraw) :
    ∃ t, s.move (.enc e d) = .next t ∧ t.HasSent o e P pre (n + 1) := by
  obtain ⟨hv, rfl, hm, ⟨hlock, E, hE, hc, htx⟩, hcount⟩ := h
  have hrel : E.phase ≠ .rel := by
    intro hp
    rw [htx, List.length_append, Encoder.sent_rel hp] at hcount
    omega
  obtain ⟨k, l, E', out, hmove, ht⟩ := State.move_enc_encMove hE hc.phase_ne_idle d
  obtain ⟨-, hp | hp⟩ | ⟨-, rfl, c, rfl⟩ := hmove.out_cases
  · exact absurd hp hc.phase_ne_acq
  · exact absurd hp hrel
  · obtain ⟨-, hc', hs⟩ | ⟨r, hl, -⟩ := hmove.sends_frame (State.end_ne_esc hv) hc
    · have hE' : (s.encs.set e E')[e]? = some E' := List.getElem?_set_self (State.lt_of_enc hE)
      refine ⟨_, ht, ?_⟩
      exact {
        valid := State.config_valid_of_set hv rfl rfl
        ctl := rfl
        micro := hm
        sending := ⟨hlock, E', hE', hc', by rw [htx, hs, List.append_assoc]⟩
        count := by rw [List.length_append, hcount, List.length_singleton, Nat.add_assoc] }
    · exact absurd (hl.symm.trans hlock) (Lock.afterRelease_ne_held r e)

/-- As many choices of the engine as octets are missing complete the frame. -/
theorem State.HasSent.run {n k : Nat} (h : s.HasSent o e P pre n) (hk : n + k = (frame o P).length) (d : LockDraw) :
    ∃ t, State.runEvents (List.replicate k (.enc e d)) s = some t ∧ t.HasSent o e P pre (frame o P).length := by
  induction k generalizing s n with
  | zero => exact ⟨s, rfl, hk ▸ h⟩
  | succ k ih =>
    obtain ⟨u, hu, hsent⟩ := h.move (by omega) d
    obtain ⟨t, ht, hdone⟩ := ih hsent (by omega)
    exact ⟨t, by rw [List.replicate_succ, State.runEvents_cons h.valid h.micro hu, ht], hdone⟩

/-- Once the frame is complete, the engine is in REL. -/
theorem State.HasSent.complete (h : s.HasSent o e P pre (frame o P).length) :
    ∃ E, s.encs[e]? = some E ∧ E.phase = .rel ∧ s.txlog = pre ++ frame o P := by
  obtain ⟨-, rfl, -, ⟨-, E, hE, hc, htx⟩, hcount⟩ := h
  have hp : E.phase = .rel := Decidable.byContradiction fun hp => by
    have hlt := hc.sent_lt hp
    rw [htx, List.length_append] at hcount
    omega
  exact ⟨E, hE, hp, by rw [htx, Encoder.sent_rel hp]⟩

theorem Status.ofRelease_of_ne_ok {r : RelAnswer} (h : r ≠ .ok) : Status.ofRelease r = .lockReleaseFailed := by
  cases r with
  | ok => exact absurd rfl h
  | failFree | failBroken => rfl

/-- REL ends the command as the lock answers (R131). -/
theorem State.move_enc_rel (hE : s.encs[e]? = some E) (hp : E.phase = .rel) :
    s.move (.enc e d) = .next { s with
      lock := Lock.afterRelease d.rel, encs := s.encs.set e (E.finish (Status.ofRelease d.rel)) } := by
  have hdec : decodeEncPhase s.config e 0#8 d E.phase = .ok (.encRel e d.rel) := by rw [hp]; rfl
  exact (State.move_enc_exec hE (by simp [hp]) hdec).trans (State.atPhase_eq hE hp)

/-- Settles O52: one choice takes the lock, each further one sends one octet of the frame, and the last one gives the
lock back. -/
theorem encoderEmitsTheFrame : Obligations.EncoderEmitsTheFrame := by
  intro s e E P d hv hm hl hE hp hlen hElen hidx hacc hread
  have hP : E.HasPayload P := ⟨hlen, hElen, hread, by simp [hidx], by simp [hidx, hacc]⟩
  obtain ⟨u, hu, hstart⟩ := State.hasSent_of_acq (d := LockDraw.allOk) hv hm hl hE hp rfl hidx hP
  obtain ⟨v, hrun, hdone⟩ := hstart.run (Nat.zero_add _) LockDraw.allOk
  obtain ⟨F, hF, hrel, htx⟩ := hdone.complete
  have hF' : (v.encs.set e (F.finish (Status.ofRelease d.rel)))[e]? = some (F.finish (Status.ofRelease d.rel)) :=
    List.getElem?_set_self (State.lt_of_enc hF)
  refine ⟨{ v with
      lock := Lock.afterRelease d.rel, encs := v.encs.set e (F.finish (Status.ofRelease d.rel)) },
    F.finish (Status.ofRelease d.rel), ?run, htx, rfl, hF', rfl, rfl, ?ok, ?failed⟩
  case run =>
    have hcount : 6 + P.length + escapedCount s.ctl P = (frame s.ctl P).length + 1 := by rw [frame_length]; omega
    rw [hcount, List.replicate_succ, List.cons_append, State.runEvents_cons hv hm hu, State.runEvents_append hrun,
      State.runEvents_cons hdone.valid hdone.micro (State.move_enc_rel hF hrel), State.runEvents]
  case ok => exact fun hr => congrArg Status.ofRelease hr
  case failed => exact Status.ofRelease_of_ne_ok

/-! ## END and ESC in a frame (R134) -/

/-- Every ESC in `L` is followed by a substitute code. -/
def EscPaired (o : ControlOctets) (L : List Byte) : Prop :=
  ∀ k, L[k]? = some o.escOctet → L[k + 1]? = some o.escEnd ∨ L[k + 1]? = some o.escEsc

theorem escPaired_of_not_mem {L : List Byte} (h : o.escOctet ∉ L) : EscPaired o L :=
  fun _ hk => absurd (List.mem_of_getElem? hk) h

theorem EscPaired.append {L M : List Byte} (hL : EscPaired o L) (hM : EscPaired o M) : EscPaired o (L ++ M) := by
  intro k hk
  by_cases hlt : k < L.length
  · rw [List.getElem?_append_left hlt] at hk
    refine (hL k hk).imp ?_ ?_ <;> intro hnext <;>
      rw [List.getElem?_append_left (List.getElem?_eq_some_iff.1 hnext).1, hnext]
  · rw [List.getElem?_append_right (by omega)] at hk ⊢
    rw [Nat.sub_add_comm (by omega)]
    exact hM _ hk

theorem escPaired_pair {sub : Byte} (hne : sub ≠ o.escOctet) (hsub : sub = o.escEnd ∨ sub = o.escEsc) :
    EscPaired o [o.escOctet, sub]
  | 0, _ => by simpa using hsub
  | 1, hk => absurd (by simpa using hk) hne
  | k + 2, hk => by simp at hk

/-- An escape is ESC and a substitute code that is not ESC (K4); any other byte is sent bare. -/
theorem escPaired_stuff (hEnd : o.escEnd ≠ o.escOctet) (hEsc : o.escEsc ≠ o.escOctet) (c : Byte) :
    EscPaired o (stuff o c) := by
  unfold stuff
  split
  · exact escPaired_pair hEnd (.inl rfl)
  · split
    · exact escPaired_pair hEsc (.inr rfl)
    · next hc => exact escPaired_of_not_mem (by simpa [eq_comm] using hc)

theorem escPaired_stuffAll (hEnd : o.escEnd ≠ o.escOctet) (hEsc : o.escEsc ≠ o.escOctet) (P : List Byte) :
    EscPaired o (stuffAll o P) := by
  induction P with
  | nil => exact escPaired_of_not_mem List.not_mem_nil
  | cons c P ih => exact (escPaired_stuff hEnd hEsc c).append ih

/-- Stuffing takes END out (K2, K4). -/
theorem end_not_mem_stuffAll (hesc : o.escOctet ≠ o.endOctet) (hEnd : o.escEnd ≠ o.endOctet)
    (hEsc : o.escEsc ≠ o.endOctet) (P : List Byte) : o.endOctet ∉ stuffAll o P := by
  simp only [stuffAll, List.mem_flatMap, not_exists, not_and]
  intro c _
  unfold stuff
  split
  · simp [hesc.symm, hEnd.symm]
  · next hc =>
    split
    · simp [hesc.symm, hEsc.symm]
    · simpa [eq_comm] using hc

theorem chk_toNat_lt (P : List Byte) : (chk P).toNat < 128 := by
  rw [chk, octet_ofNat_toNat (by omega)]
  omega

/-- Settles O57: by K5 neither the length nor the checksum is END or ESC, and by K1, K2 and K4 neither is START or a
substitute code. -/
theorem escapingIsCorrect : Obligations.EscapingIsCorrect := by
  intro o P hv hP
  have hp : (Config.mk o 1).valid = true := by simp [Config.valid, hv]
  obtain ⟨hStartEnd, hStartEsc, hEndEsc, -, hSubEndEnd, hSubEndEsc, hSubEscEnd, hSubEscEsc, hEnd, hEsc, -⟩ :=
    (Config.valid_iff _).1 hp
  have hlen : (BitVec.ofNat 8 P.length).toNat ≤ 128 := by rw [octet_ofNat_toNat (by omega)]; exact hP
  have hchk : (chk P).toNat ≤ 128 := Nat.le_of_lt (chk_toNat_lt P)
  have small {c x : Byte} (hc : c.toNat ≤ 128) (hx : 0x81 ≤ x.toNat) : x ≠ c := by rintro rfl; omega
  refine ⟨[o.startOctet, BitVec.ofNat 8 P.length] ++ stuffAll o P ++ [chk P], ?_, ?noEnd, ?paired⟩
  · simp [frame]
  case noEnd =>
    simp only [List.mem_append, List.mem_cons, List.not_mem_nil, or_false, not_or]
    exact ⟨⟨⟨hStartEnd.symm, small hlen hEnd⟩, end_not_mem_stuffAll hEndEsc.symm hSubEndEnd hSubEscEnd P⟩,
      small hchk hEnd⟩
  case paired =>
    refine ((escPaired_of_not_mem ?_).append (escPaired_stuffAll hSubEndEsc hSubEscEsc P)).append
      (escPaired_of_not_mem ?_)
    · simp [hEndEsc.symm, hStartEsc.symm, small hlen hEsc]
    · simp [hEndEsc.symm, small hchk hEsc]

end Sys2Proof.Machine

/-! The decoder's steps (42_decoder.md): each row's next state, the commit, what a decoder step leaves alone, the decode
as a whole (noise, a frame, the verdict), and which bit flips the checksum sees. -/
namespace Sys2Proof.Machine

variable {s t u : State} {i : Instr} {o : ControlOctets} {c d z x : Byte} {B : Nat} {D D' : Decoder} {m m' m₀ : Memory}
  {L P cs ds rest noise : List Byte}

/-! ## The rows, one by one -/

/-- Settles O17: the two classes of octet in AWAIT_START (R153, R154). -/
theorem decAwaitStartFindsStart : Obligations.DecAwaitStartFindsStart :=
  fun _ _ _ hp hq => ⟨by rintro rfl; exact State.onOctet_eq hp hq,
    fun hc => (State.onOctet_eq hp hq).trans (if_neg hc)⟩

/-- Settles O18: the row takes whatever octet comes (R155). -/
theorem decReadSizeTakesAnyOctet : Obligations.DecReadSizeTakesAnyOctet :=
  fun _ _ _ hp hq => State.onOctet_eq hp hq

/-- DEC.RB.END (R156) on its one condition. -/
theorem execDecRbEnd_eq (hp : s.dec.phase = .readBody) (hq : s.rxq = s.ctl.endOctet :: rest) :
    execDecRbEnd s = .next { s with
      rxq := rest
      dec := s.dec.finish (if s.dec.pend && Acc.cmp s.dec.acc s.dec.prev then .ok else .checksumMismatch) } := by
  refine (State.onOctet_eq hp hq).trans ?_
  dsimp only
  split <;> rfl

/-- Settles O19: there is a candidate and CMP answers yes, or one of the two fails (R156, R194). -/
theorem decEndComparesCandidate : Obligations.DecEndComparesCandidate := by
  intro s rest hp hq
  have hcond : (s.dec.pend && Acc.cmp s.dec.acc s.dec.prev) = true
      ↔ s.dec.pend = true ∧ s.dec.prev.toNat = s.dec.acc.toNat % 128 := by
    rw [Bool.and_eq_true, Acc.cmp_iff]
  refine ⟨fun hpend hsum => ?ok, fun hbad => ?mismatch⟩ <;> refine (execDecRbEnd_eq hp hq).trans ?_
  case ok =>
    rw [if_pos (hcond.2 ⟨hpend, hsum⟩)]
    rfl
  case mismatch =>
    rw [if_neg (mt hcond.1 fun ⟨hpend, hsum⟩ => hbad.elim (by rw [hpend]; exact nofun) (absurd hsum))]
    rfl

/-- Settles O20: ESC opens an escape (R157), and only the two substitute codes continue it (R161). -/
theorem decEscapeOpensAndMalformedEnds : Obligations.DecEscapeOpensAndMalformedEnds :=
  fun _ _ _ hq => ⟨fun hp => by rintro rfl; exact State.onOctet_eq hp hq,
    fun hp hEnd hEsc => (State.onOctet_eq hp hq).trans (if_neg (not_or.2 ⟨hEnd, hEsc⟩))⟩

/-- Settles O21: the three cases of a commit (R152), the bound being R151's. -/
theorem commitSumsAndStoresWithinBound : Obligations.CommitSumsAndStoresWithinBound := by
  intro s d
  simp only [← Acc.add_eq_ofNat]
  refine ⟨State.commit_of_not_pend d, fun hp hn => ?store, fun hp hn => ?drop⟩
  case store =>
    exact ⟨_, State.commit_store d hp hn, Memory.read_write_same .., fun k hk => Memory.read_write_of_ne _ _ hk.symm⟩
  case drop => exact State.commit_drop d hp (Nat.not_lt.2 hn)

/-- Settles O22: a bare octet commits itself (R158), a substitute code the octet it stands for (R159, R160). -/
theorem decBodyOctetsAreCommitted : Obligations.DecBodyOctetsAreCommitted := by
  intro s c rest hq
  refine ⟨fun hp hEnd hEsc => ?bare, fun hp hc => ⟨_, rfl, ?escEnd⟩, fun hp hc => ⟨_, rfl, ?escEsc⟩⟩
  case bare => exact (State.onOctet_eq hp hq).trans (if_neg (not_or.2 ⟨hEnd, hEsc⟩))
  case escEnd => exact State.onOctet_eq hp (hc ▸ hq)
  case escEsc => exact State.onOctet_eq hp (hc ▸ hq)

/-! ## What a decoder's step leaves alone -/

theorem Committed.limits_eq (h : Committed d D m D' m') : D'.size = D.size ∧ D'.maxlen = D.maxlen := by
  cases h <;> exact ⟨rfl, rfl⟩

/-- A commit writes index `n` at most, and none outside the bound (R151). -/
theorem Committed.read_eq (h : Committed d D m D' m') {a : Nat} (ha : a ≠ D.n.toNat ∨ D.bound ≤ a) :
    m'.read a = m.read a := by
  cases h with
  | first | drop => rfl
  | store _ hn => exact Memory.read_write_of_ne _ _ (by omega)

theorem DecMove.maxlen_eq (h : DecMove o c D m D' m') : D'.maxlen = D.maxlen := by
  cases h with
  | rbData _ _ _ hc | beEscEnd _ hc | beEscEsc _ hc => exact hc.limits_eq.2
  | asStart | asOther | rsAny | rbEndOk | rbEndBad | rbEsc | beBad => rfl

theorem DecMove.read_eq (h : DecMove o c D m D' m') {a : Nat} (ha : a ≠ D.n.toNat ∨ D.bound ≤ a) :
    m'.read a = m.read a := by
  cases h with
  | rbData _ _ _ hc | beEscEnd _ hc | beEscEsc _ hc => exact hc.read_eq ha
  | asStart | asOther | rsAny | rbEndOk | rbEndBad | rbEsc | beBad => rfl

/-- Settles O48: a move takes one octet and writes the decoder and OBUF only, OBUF through the commit. -/
theorem decoderStepFrame : Obligations.DecoderStepFrame := by
  intro i s t hi h
  obtain ⟨c, rest, D', m', hq, hmove, rfl⟩ := exec_dec_next hi h
  refine ⟨⟨c, hq⟩, rfl, rfl, rfl, rfl, rfl, rfl, rfl, rfl, hmove.maxlen_eq, fun a ha => hmove.read_eq (.inl ha),
    fun a ha => hmove.read_eq (.inr ?_)⟩
  unfold Decoder.bound
  omega

/-! ## A decode, octet by octet -/

/-- The row that phase and octet select is the move of the picked decoder. -/
theorem State.move_dec_exec {ph : DecPhase} (hp : u.dec.phase = ph) (hq : u.rxq = c :: rest)
    (hdec : decodeDecPhase u.config c ph = .ok i) : u.move .dec = exec i u := by
  rw [State.move_dec_of_cons hq, hp]
  exact State.runFetched_ok ((decodeDec_decWord ..).trans hdec)

theorem Committed.commit_eq (h : Committed d D m D' m') (hD : u.dec = D) (hm : u.obuf = m) :
    u.commit d = { u with dec := D', obuf := m' } := by
  subst hD hm
  cases h with
  | first hp => exact State.commit_of_not_pend d hp
  | store hp hn => exact State.commit_store d hp hn
  | drop hp hn => exact State.commit_drop d hp hn

theorem Committed.total (d : Byte) (D : Decoder) (m : Memory) : ∃ D' m', Committed d D m D' m' := by
  obtain ⟨D', m', hc, -⟩ := State.commit_cases { State.reset with dec := D, obuf := m } d
  exact ⟨D', m', hc⟩

/-- A commit reads no phase and writes none. -/
theorem Committed.to_phase (h : Committed d D m D' m') (ph : DecPhase) :
    Committed d { D with phase := ph } m { D' with phase := ph } m' := by
  cases h with
  | first hp => exact .first hp
  | store hp hn => exact .store hp hn
  | drop hp hn => exact .drop hp hn

/-- Picking the decoder makes any move it has on the first received octet; K2 and K3 keep the octet classes apart. -/
theorem DecMove.move_eq (h : DecMove u.ctl c u.dec u.obuf D' m') (hv : u.config.valid = true)
    (hq : u.rxq = c :: rest) : u.move .dec = .next { u with rxq := rest, dec := D', obuf := m' } := by
  cases h with
  | asStart hp => exact (State.move_dec_exec hp hq (if_pos rfl)).trans (State.onOctet_eq hp hq)
  | asOther hp hc => exact (State.move_dec_exec hp hq (if_neg hc)).trans ((State.onOctet_eq hp hq).trans (if_neg hc))
  | rsAny hp => exact (State.move_dec_exec hp hq rfl).trans (State.onOctet_eq hp hq)
  | rbEndOk hp hpend hc =>
    refine ((State.move_dec_exec hp hq (if_pos rfl)).trans (execDecRbEnd_eq hp hq)).trans ?_
    rw [hpend, hc]
    rfl
  | rbEndBad hp hc =>
    refine ((State.move_dec_exec hp hq (if_pos rfl)).trans (execDecRbEnd_eq hp hq)).trans ?_
    rw [hc]
    rfl
  | rbEsc hp =>
    exact (State.move_dec_exec hp hq ((if_neg (Config.esc_ne_end hv)).trans (if_pos rfl))).trans
      (State.onOctet_eq hp hq)
  | rbData hp hEnd hEsc hc =>
    obtain ⟨hrow, -⟩ := decBodyOctetsAreCommitted u c rest hq
    rw [State.move_dec_exec hp hq ((if_neg hEnd).trans (if_neg hEsc)), hrow hp hEnd hEsc,
      hc.commit_eq (u := { u with rxq := rest }) rfl rfl]
  | beEscEnd hp hc =>
    obtain ⟨-, hrow, -⟩ := decBodyOctetsAreCommitted u _ rest hq
    obtain ⟨t, rfl, ht⟩ := hrow hp rfl
    rw [State.move_dec_exec hp hq (if_pos rfl), ht, hc.commit_eq (u := { u with rxq := rest }) rfl rfl]
  | beEscEsc hp hc =>
    obtain ⟨-, -, hrow⟩ := decBodyOctetsAreCommitted u _ rest hq
    obtain ⟨t, rfl, ht⟩ := hrow hp rfl
    rw [State.move_dec_exec hp hq ((if_neg (Config.escEsc_ne_escEnd hv)).trans (if_pos rfl)), ht,
      hc.commit_eq (u := { u with rxq := rest }) rfl rfl]
  | beBad hp hEnd hEsc =>
    obtain ⟨-, hrow⟩ := decEscapeOpensAndMalformedEnds u c rest hq
    rw [State.move_dec_exec hp hq ((if_neg hEnd).trans (if_neg hEsc)), hrow hp hEnd hEsc]
    rfl

/-- The moves of the decoder on a string of octets, one move each. -/
inductive DecRun (o : ControlOctets) : List Byte → Decoder → Memory → Decoder → Memory → Prop
  | nil {D : Decoder} {m : Memory} : DecRun o [] D m D m
  | cons {c : Byte} {cs : List Byte} {D D₁ D' : Decoder} {m m₁ m' : Memory} (h : DecMove o c D m D₁ m₁)
      (hs : DecRun o cs D₁ m₁ D' m') : DecRun o (c :: cs) D m D' m'

theorem DecRun.append {D₁ : Decoder} {m₁ : Memory} (h : DecRun o cs D m D₁ m₁) (hs : DecRun o ds D₁ m₁ D' m') :
    DecRun o (cs ++ ds) D m D' m' := by
  induction h with
  | nil => exact hs
  | cons hmove _ ih => exact .cons hmove (ih hs)

/-- Picking the decoder once per octet makes the run, and touches the decoder, OBUF and RXQ only. -/
theorem DecRun.runEvents_eq (h : DecRun s.ctl cs s.dec s.obuf D' m') (hv : s.config.valid = true)
    (hm : s.micro = none) (hq : s.rxq = cs ++ rest) :
    State.runEvents (List.replicate cs.length .dec) s = some { s with rxq := rest, dec := D', obuf := m' } := by
  induction cs generalizing s with
  | nil =>
    cases h
    obtain rfl : s.rxq = rest := hq
    rfl
  | cons c cs ih =>
    cases h with
    | cons hmove hs =>
      rw [List.length_cons, List.replicate_succ, State.runEvents_cons hv hm (hmove.move_eq hv hq)]
      exact ih (s := { s with rxq := cs ++ rest, dec := _, obuf := _ }) hs hv hm rfl

/-! ## The runs a frame is made of -/

/-- Octets other than START are discarded in AWAIT_START (R154). -/
theorem DecRun.discard (hp : D.phase = .awaitStart) (hnoise : o.startOctet ∉ noise) : DecRun o noise D m D m := by
  induction noise with
  | nil => exact .nil
  | cons c noise ih =>
    rw [List.mem_cons, not_or] at hnoise
    obtain ⟨hc, hnoise⟩ := hnoise
    exact .cons (.asOther hp (Ne.symm hc)) (ih hnoise)

/-- A stuffed byte commits the byte itself, whether or not it is escaped (R157 to R160). -/
theorem DecRun.stuff (hp : D.phase = .readBody) (hc : Committed d D m D' m') : DecRun o (stuff o d) D m D' m' := by
  have hback : { D' with phase := .readBody } = D' := by rw [← hp, ← hc.phase_eq]
  unfold Machine.stuff
  split
  · next hEnd =>
    subst hEnd
    rw [← hback]
    exact .cons (.rbEsc hp) (.cons (.beEscEnd rfl (hc.to_phase .bodyEsc)) .nil)
  · next hEnd =>
    split
    · next hEsc =>
      subst hEsc
      rw [← hback]
      exact .cons (.rbEsc hp) (.cons (.beEscEsc rfl (hc.to_phase .bodyEsc)) .nil)
    · next hEsc => exact .cons (.rbData hp hEnd hEsc hc) .nil

theorem Committed.candidate (h : Committed d D m D' m') : D'.pend = true ∧ D'.prev = d := by
  cases h with
  | first => exact ⟨rfl, rfl⟩
  | store hp | drop hp => exact ⟨hp, rfl⟩

/-- The decoder in READ_BODY has received the body octets `L`, the candidate (if there is one) the last of them, under
the bound `B`; since OBUF was `m₀`, it has been written below the bound only (R151). -/
structure Decoder.InBody (D : Decoder) (m : Memory) (B : Nat) (m₀ : Memory) (L : List Byte) : Prop where
  phase : D.phase = .readBody
  bound : D.bound = B
  received : ∃ K, D.HasCommitted m K ∧ L = if D.pend = true then K ++ [D.prev] else K
  above : ∀ k, B ≤ k → m.read k = m₀.read k

/-- The next commit adds the candidate to the committed octets. -/
theorem Decoder.InBody.hasCommitted (h : D.InBody m B m₀ L) (hc : Committed d D m D' m') : D'.HasCommitted m' L := by
  obtain ⟨K, hK, rfl⟩ := h.received
  exact hc.hasCommitted hK

theorem Decoder.InBody.commit (h : D.InBody m B m₀ L) (hc : Committed d D m D' m') :
    D'.InBody m' B m₀ (L ++ [d]) := by
  obtain ⟨hsize, hmax⟩ := hc.limits_eq
  obtain ⟨hpend, hprev⟩ := hc.candidate
  exact {
    phase := hc.phase_eq.trans h.phase
    bound := by rw [← h.bound, Decoder.bound, Decoder.bound, hsize, hmax]
    received := ⟨L, h.hasCommitted hc, by rw [if_pos hpend, hprev]⟩
    above := fun k hk => (hc.read_eq (.inr (h.bound ▸ hk))).trans (h.above k hk) }

/-- The first START and the SIZE after it open an empty body (R153 to R155). -/
theorem DecRun.open_body (hp : D.phase = .awaitStart) (hnoise : o.startOctet ∉ noise) (m : Memory) (z : Byte) :
    ∃ D', DecRun o (noise ++ [o.startOctet, z]) D m D' m ∧ D'.InBody m (min z.toNat D.maxlen.toNat) m [] :=
  ⟨_, (DecRun.discard hp hnoise).append (.cons (.asStart hp) (.cons (.rsAny rfl) .nil)), {
    phase := rfl
    bound := rfl
    received := ⟨[], (Decoder.hasCommitted_nil ..).2 ⟨rfl, rfl⟩, rfl⟩
    above := fun _ _ => rfl }⟩

/-- The stuffed bytes of `P` are received as `P`. -/
theorem Decoder.InBody.receive (h : D.InBody m B m₀ L) (o : ControlOctets) (P : List Byte) :
    ∃ D' m', DecRun o (stuffAll o P) D m D' m' ∧ D'.InBody m' B m₀ (L ++ P) := by
  induction P generalizing D m L with
  | nil => exact ⟨D, m, .nil, by rwa [List.append_nil]⟩
  | cons d P ih =>
    obtain ⟨D₁, m₁, hc⟩ := Committed.total d D m
    obtain ⟨D', m', hrun, hbody⟩ := ih (h.commit hc)
    exact ⟨D', m', (DecRun.stuff h.phase hc).append hrun, by rwa [List.append_assoc] at hbody⟩

/-- CMP compares with the checksum of the committed octets (R156, R194). -/
theorem Decoder.HasCommitted.cmp_iff (h : D.HasCommitted m P) : Acc.cmp D.acc x = true ↔ x = chk P := by
  obtain ⟨hacc, -⟩ := h
  rw [Acc.cmp_iff, hacc, chk, ← BitVec.toNat_inj, octet_ofNat_toNat (by omega)]
  omega

/-- The status that END gives a body of `P` and the bare octet `x` (R156). -/
def verdict (x : Byte) (P : List Byte) : Status := if x = chk P then .ok else .checksumMismatch

theorem verdict_of_eq (h : x = chk P) : verdict x P = .ok := if_pos h

theorem verdict_of_ne (h : x ≠ chk P) : verdict x P = .checksumMismatch := if_neg h

/-- A bare octet `x` and END: all before `x` is committed, and `x` is taken for the checksum (R156). -/
theorem Decoder.InBody.close (h : D.InBody m B m₀ P) (hEnd : x ≠ o.endOctet) (hEsc : x ≠ o.escOctet) :
    ∃ (D' : Decoder) (m' : Memory), DecRun o [x, o.endOctet] D m (D'.finish (verdict x P)) m'
      ∧ D'.HasCommitted m' P ∧ D'.InBody m' B m₀ (P ++ [x]) := by
  obtain ⟨D', m', hc⟩ := Committed.total x D m
  have hP := h.hasCommitted hc
  have hin := h.commit hc
  obtain ⟨hpend, hprev⟩ := hc.candidate
  have hcmp : Acc.cmp D'.acc D'.prev = true ↔ x = chk P := by rw [hprev, hP.cmp_iff]
  have hend : DecMove o o.endOctet D' m' (D'.finish (verdict x P)) m' := by
    by_cases hx : x = chk P
    · rw [verdict_of_eq hx]
      exact .rbEndOk hin.phase hpend (hcmp.2 hx)
    · rw [verdict_of_ne hx]
      exact .rbEndBad hin.phase (by rw [hpend, Bool.true_and, Bool.eq_false_iff]; exact mt hcmp.1 hx)
  exact ⟨D', m', .cons (.rbData h.phase hEnd hEsc hc) (.cons hend .nil), hP, hin⟩

/-- Settles O53: the noise and the opening, the stuffed bytes, and the closing, one after the other. -/
theorem decoderVerdictOnAnyBody : Obligations.DecoderVerdictOnAnyBody := by
  intro s maxlen z x noise P rest hv hm hp hmax hnoise hEnd hEsc hq
  subst hmax
  obtain ⟨D₁, hopen, hin₁⟩ := DecRun.open_body hp hnoise s.obuf z
  obtain ⟨D₂, m₂, hbody, hin₂⟩ := hin₁.receive s.ctl P
  obtain ⟨D₃, m₃, hclose, ⟨-, hn, hread⟩, hin₃⟩ := hin₂.close hEnd hEsc
  have hrun := ((hopen.append hbody).append hclose).runEvents_eq hv hm hq
  rw [List.nil_append, hin₃.bound] at hn
  refine ⟨{ s with rxq := rest, dec := D₃.finish (verdict x P), obuf := m₃ },
    ?run, rfl, rfl, rfl, fun hx => ?ok, fun hx => ?mismatch, hin₃.above, rfl, rfl, rfl⟩
  case run =>
    simp only [List.length_append] at hrun
    exact hrun
  case ok =>
    dsimp only
    rw [verdict_of_eq hx]
    exact ⟨rfl, hn, fun k hk => hread k (hn ▸ hk)⟩
  case mismatch =>
    dsimp only
    rw [verdict_of_ne hx]
    exact ⟨rfl, rfl⟩

/-- The decode of `frame(P)` (R164, R165): OK, with as much of `P` as `maxlen` has room for. -/
theorem State.decodes_frame (hv : s.config.valid = true) (hm : s.micro = none) (hp : s.dec.phase = .awaitStart)
    (hP : P.length ≤ 128) (hq : s.rxq = frame s.ctl P ++ rest) :
    ∃ t, State.runEvents (List.replicate (frame s.ctl P).length .dec) s = some t
      ∧ t.rxq = rest ∧ t.dec.phase = .idle ∧ t.dec.status = .ok
      ∧ t.dec.rlen.toNat = min P.length s.dec.maxlen.toNat
      ∧ (∀ k, k < min P.length s.dec.maxlen.toNat → t.obuf.read k = P[k]?)
      ∧ ∀ k, min P.length s.dec.maxlen.toNat ≤ k → t.obuf.read k = s.obuf.read k := by
  obtain ⟨hStartEnd, -, -, -, -, -, -, -, hEnd, hEsc, -⟩ := (Config.valid_iff _).1 hv
  rw [State.config_octets] at hStartEnd hEnd hEsc
  have hz : (BitVec.ofNat 8 P.length).toNat = P.length := octet_ofNat_toNat (by omega)
  have chk_ne {c : Byte} (hc : 0x81 ≤ c.toNat) : chk P ≠ c := by
    rintro rfl
    exact absurd (chk_toNat_lt P) (by omega)
  obtain ⟨t, hrun, hrest, hidle, -, hok, -, habove, -⟩ :=
    decoderVerdictOnAnyBody s _ (BitVec.ofNat 8 P.length) (chk P) [s.ctl.endOctet] P rest hv hm hp rfl
      (fun h => hStartEnd (List.mem_singleton.1 h)) (chk_ne hEnd) (chk_ne hEsc) hq
  obtain ⟨hstatus, hrlen, hread⟩ := hok rfl
  rw [hz] at hrlen hread habove
  rw [← Nat.min_assoc, Nat.min_self] at hrlen hread
  have hlen : (frame s.ctl P).length = [s.ctl.endOctet].length + 2 + (stuffAll s.ctl P).length + 2 := by
    rw [frame_length, stuffAll_length, List.length_singleton]
    omega
  exact ⟨t, hlen ▸ hrun, hrest, hidle, hstatus, hrlen, hread, habove⟩

/-- Settles O54: with room for the payload all of it is stored (R164). -/
theorem decoderRoundTrip : Obligations.DecoderRoundTrip := by
  intro s maxlen P rest hv hm hp hmax hP hroom hq
  obtain ⟨t, hrun, hrest, hidle, hstatus, hrlen, hread, -⟩ := State.decodes_frame hv hm hp hP hq
  rw [hmax, Nat.min_eq_left hroom] at hrlen hread
  exact ⟨t, hrun, hrest, hidle, hstatus, hrlen, hread⟩

/-- Settles O55: with less room, `maxlen` bytes of it are stored (R165). -/
theorem decoderTruncates : Obligations.DecoderTruncates := by
  intro s maxlen P rest hv hm hp hmax hP hroom hq
  obtain ⟨t, hrun, hrest, hidle, hstatus, hrlen, hread, habove⟩ := State.decodes_frame hv hm hp hP hq
  rw [hmax, Nat.min_eq_right (Nat.le_of_lt hroom)] at hrlen hread habove
  exact ⟨t, hrun, hrest, hidle, hstatus, BitVec.eq_of_toNat_eq hrlen, hread, habove⟩

/-! ## What the checksum sees (R170) -/

/-- Of one payload byte the checksum sees the low seven bits, which are its FOLD. -/
theorem chk_eq_iff_fold_eq (A C : List Byte) (a b : Byte) :
    chk (A ++ [a] ++ C) = chk (A ++ [b] ++ C) ↔ Acc.fold a = Acc.fold b := by
  simp only [← BitVec.toNat_inj, Acc.fold_toNat, chk, BitVec.toNat_ofNat, List.map_append, List.sum_append,
    List.map_singleton, List.sum_singleton]
  omega

theorem Acc.fold_xor_eq_iff (b k : Byte) : Acc.fold (b ^^^ k) = Acc.fold b ↔ Acc.fold k = 0#8 := by
  have hxor : Acc.fold (b ^^^ k) = Acc.fold b ^^^ Acc.fold k := by
    ext i hi
    simp only [Acc.fold, BitVec.getElem_and, BitVec.getElem_xor, Bool.and_xor_distrib_right]
  have hcancel : Acc.fold b ^^^ Acc.fold k = Acc.fold b ^^^ 0#8 ↔ Acc.fold k = 0#8 := BitVec.xor_right_inj _
  rwa [BitVec.xor_zero, ← hxor] at hcancel

/-- Settles O60: FOLD keeps the bits 0 to 6 of a flip and drops bit 7. -/
theorem checksumSeesLowBitFlipsOnly : Obligations.ChecksumSeesLowBitFlipsOnly := by
  intro A C b j
  rw [Ne, chk_eq_iff_fold_eq, chk_eq_iff_fold_eq, Acc.fold_xor_eq_iff, Acc.fold_xor_eq_iff]
  exact ⟨(by decide : ∀ j < 7, Acc.fold (BitVec.twoPow 8 j) ≠ 0#8) j, by decide⟩

end Sys2Proof.Machine

/-! The checksum accumulator (43_checksum.md): each micro-operation's next state at either accumulator, what a
micro-operation leaves alone, and the wrapping sum, whose low seven bits are the exact sum's. -/
namespace Sys2Proof.Machine

variable {s : State} {a : AccInst} {acc v d x : Byte} {e : Nat} {E : Encoder}

/-! ## An accumulator's register -/

theorem State.acc?_dec : s.acc? .dec = some s.dec.acc := rfl

theorem State.acc?_enc (hE : s.encs[e]? = some E) : s.acc? (.enc e) = some E.acc := by
  rw [State.acc?, hE, Option.map_some]

theorem State.setAcc_enc (hE : s.encs[e]? = some E) :
    s.setAcc (.enc e) v = { s with encs := s.encs.set e { E with acc := v } } := by
  simp only [State.setAcc, hE, State.setEnc]

/-! ## The rows, at an existing accumulator -/

theorem exec_accClear_eq (ha : s.acc? a = some acc) : exec (.accClear a) s = .next (s.setAcc a 0#8) :=
  State.atAcc_eq ha

theorem exec_accAdd_eq (ha : s.acc? a = some acc) :
    exec (.accAdd a d) s = .next (s.setAcc a (BitVec.ofNat 8 ((acc.toNat + d.toNat) % 256))) := by
  rw [← Acc.add_eq_ofNat]
  exact State.atAcc_eq ha

theorem exec_accFold_eq (ha : s.acc? a = some acc) :
    exec (.accFold a) s = .next { s with accOut := .fold (BitVec.ofNat 8 (acc.toNat % 128)) } := by
  rw [← Acc.fold_eq_ofNat]
  exact State.atAcc_eq ha

/-- CMP compares the whole octet: an operand with bit 7 set is never equal (R194). -/
theorem Acc.cmp_eq_decide (acc x : Byte) : Acc.cmp acc x = decide (acc.toNat % 128 = x.toNat) := by
  rw [Bool.eq_iff_iff, Acc.cmp_iff, decide_eq_true_iff, eq_comm]

theorem exec_accCmp_eq (ha : s.acc? a = some acc) :
    exec (.accCmp a x) s = .next { s with accOut := .eq (decide (acc.toNat % 128 = x.toNat)) } := by
  rw [← Acc.cmp_eq_decide]
  exact State.atAcc_eq ha

/-! ## The wrapping sum (R192) -/

/-- Seven bits or more of an accumulator hold the sum mod 128. -/
theorem mod_two_pow_mod_128 {w : Nat} (hw : 7 ≤ w) (n : Nat) : n % 2 ^ w % 128 = n % 128 :=
  Nat.mod_mod_of_dvd n (Nat.pow_dvd_pow 2 hw : 2 ^ 7 ∣ 2 ^ w)

/-- Wrapping at every addition or once at the end is the same. -/
theorem foldl_add_mod (k a : Nat) (ds : List Nat) :
    ds.foldl (fun a d => (a + d) % k) a % k = (a + ds.sum) % k := by
  induction ds generalizing a with
  | nil => rfl
  | cons d ds ih => rw [List.foldl_cons, ih, Nat.mod_add_mod, List.sum_cons, Nat.add_assoc]

theorem foldl_add_mod_two_pow_mod_128 {w : Nat} (hw : 7 ≤ w) (ds : List Nat) :
    ds.foldl (fun a d => (a + d) % 2 ^ w) 0 % 128 = ds.sum % 128 := by
  rw [← mod_two_pow_mod_128 hw, foldl_add_mod, mod_two_pow_mod_128 hw, Nat.zero_add]

/-- A sequence of ACC.ADDs is a sum that wraps at eight bits. -/
theorem Acc.foldl_add_toNat (acc : Byte) (P : List Byte) :
    (P.foldl Acc.add acc).toNat = (P.map BitVec.toNat).foldl (fun a d => (a + d) % 2 ^ 8) acc.toNat := by
  rw [List.foldl_map]
  exact (List.foldl_hom BitVec.toNat fun a d => (BitVec.toNat_add a d).symm).symm

/-- Settles O23: the two rows at either accumulator, and the width identity with its sequence of additions. -/
theorem accClearAndAdd : Obligations.AccClearAndAdd := by
  refine ⟨fun s d => ⟨exec_accClear_eq State.acc?_dec, exec_accAdd_eq State.acc?_dec, fun e E hE => ?engine⟩,
    fun w a d hw => ?identity, fun w ds hw => foldl_add_mod_two_pow_mod_128 hw ds⟩
  case engine =>
    rw [← State.setAcc_enc hE, ← State.setAcc_enc hE]
    exact ⟨exec_accClear_eq (State.acc?_enc hE), exec_accAdd_eq (State.acc?_enc hE)⟩
  case identity => rw [Nat.mod_add_mod, mod_two_pow_mod_128 hw]

/-- Settles O24: FOLD and CMP read the register of either accumulator and write `accOut` only. -/
theorem accFoldAndCmpOnlyPutOut : Obligations.AccFoldAndCmpOnlyPutOut :=
  fun _ _ => ⟨exec_accFold_eq State.acc?_dec, exec_accCmp_eq State.acc?_dec, fun _ _ hE =>
    ⟨exec_accFold_eq (State.acc?_enc hE), exec_accCmp_eq (State.acc?_enc hE)⟩⟩

/-- Settles O59: the eight-bit case of the width identity. -/
theorem foldOfSumIsChecksum : Obligations.FoldOfSumIsChecksum := by
  intro P
  have hsum : (P.foldl Acc.add Acc.clear).toNat % 128 = (P.map BitVec.toNat).sum % 128 := by
    rw [Acc.foldl_add_toNat]
    exact foldl_add_mod_two_pow_mod_128 (by decide) _
  rw [Acc.fold_eq_ofNat, hsum, chk]

/-! ## What a micro-operation leaves alone -/

/-- Settles O50: a micro-operation writes the output, the decoder's accumulator, or one engine's. -/
theorem accumulatorFrame : Obligations.AccumulatorFrame := by
  intro i s t hi h
  have same {f : Nat} {F F' : Encoder} (hF : s.encs[f]? = some F) (hF' : s.encs[f]? = some F') :
      { F' with acc := F.acc } = F := by
    obtain rfl : F = F' := Option.some.inj (hF.symm.trans hF')
    rfl
  obtain ⟨_, rfl⟩ | ⟨_, rfl⟩ | ⟨e, E, v, hE, rfl⟩ := exec_acc_next hi h
  · exact ⟨rfl, rfl, fun _ _ _ => same⟩
  · exact ⟨rfl, rfl, fun _ _ _ => same⟩
  · refine ⟨rfl, List.length_set, fun f F F' hF hF' => ?_⟩
    by_cases hf : e = f
    · subst hf
      obtain rfl : E = F := Option.some.inj (hE.symm.trans hF)
      rw [List.getElem?_set_self (State.lt_of_enc hE)] at hF'
      cases hF'
      rfl
    · rw [List.getElem?_set_ne hf] at hF'
      exact same hF hF'

end Sys2Proof.Machine

/-! Reset and whole host programs (70_reset_and_hazards.md): the reset event, what each line of a script does in a
block that is otherwise at rest, and the loopback program from reset. -/
namespace Sys2Proof.Machine

variable {s t : State} {i : Instr} {p : Config} {e k : Nat} {E : Encoder} {d : LockDraw} {P : List Byte}
  {evs : List Event} {l : ScriptLine} {ls : List ScriptLine}

/-! ## The reset event (R250) -/

/-- Settles O35: the choice is taken from the list before the event applies. -/
theorem resetEventRestoresResetValues : Obligations.ResetEventRestoresResetValues :=
  fun _ _ hv hm hp => step_of_pending_cons hv hm hp

/-! ## Running a script's lines (R92) -/

theorem State.runScript_cons (h : State.runEvents (l.events s) s = some t) :
    s.runScript (l :: ls) = t.runScript ls := by
  rw [State.runScript, h]

/-- A well-formed request's word is issued, and the request takes effect. -/
theorem State.runEvents_request (hv : s.config.valid = true) (hm : s.micro = none) (hf : i.format = .hostReq)
    (hi : i.wellFormed s.config = true) (h : exec i s = .next t) :
    State.runEvents (requestEvent s.config i ++ evs) s = State.runEvents evs t := by
  have hdec := decode_encode_hostReq hv hf hi
  have hword : ∃ w, encode s.config i = .host w := by
    cases i <;> simp only [Instr.format, reduceCtorEq] at hf <;> exact ⟨_, rfl⟩
  obtain ⟨w, hw⟩ := hword
  rw [hw] at hdec
  have hmove : s.move (.host w) = .next t := (State.runFetched_ok hdec).trans h
  rw [requestEvent, hw]
  exact State.runEvents_cons hv hm hmove

/-- The configuration counts the engines, and does not look into them. -/
theorem State.config_eq_of_set (hctl : t.ctl = s.ctl) (hes : t.encs = s.encs.set e E) : t.config = s.config := by
  rw [State.config, State.config, State.nEnc_def, State.nEnc_def, hctl, hes, List.length_set]

/-- Writing the registers an engine has changes nothing. -/
theorem State.encs_set_self (hE : s.encs[e]? = some E) : s.encs.set e E = s.encs := by
  obtain ⟨_, rfl⟩ := List.getElem?_eq_some_iff.1 hE
  exact List.set_getElem_self _

/-- LOAD (R93) into an idle engine stores the bytes from index `k` on, and leaves what stands below. -/
theorem State.runEvents_load (hc : s.config = p) (hv : p.valid = true) (hm : s.micro = none)
    (hE : s.encs[e]? = some E) (hidle : E.phase = .idle) (hfit : k + P.length ≤ 128) :
    ∃ m r, State.runEvents (loadEvents p e k P) s
        = some { s with encs := s.encs.set e { E with ibuf := m }, response := r }
      ∧ (∀ j, j < P.length → m.read (k + j) = P[j]?) ∧ ∀ j, j < k → m.read j = E.ibuf.read j := by
  induction P generalizing s E k with
  | nil =>
    refine ⟨E.ibuf, s.response, ?_, nofun, fun _ _ => rfl⟩
    rw [State.encs_set_self hE]
    rfl
  | cons b P ih =>
    rw [List.length_cons] at hfit
    obtain ⟨hstore, -⟩ := writeIbufStoresOneByte s e k b
    obtain ⟨m₁, hexec, hself, hother⟩ := hstore E (by omega) hE hidle
    subst hc
    have hk : k < Config.ibufCap := Nat.lt_of_lt_of_le (by omega) hfit
    have hwf : (Instr.writeIbuf e k b).wellFormed s.config = true :=
      Bool.and_eq_true_iff.2 ⟨decide_eq_true (State.lt_of_enc hE), decide_eq_true hk⟩
    obtain ⟨m, r, hrun, hread, hbelow⟩ := ih
      (s := { s with encs := s.encs.set e { E with ibuf := m₁ }, response := some 0#32 }) (k := k + 1)
      (State.config_eq_of_set rfl rfl) hm (List.getElem?_set_self (State.lt_of_enc hE)) hidle (by omega)
    refine ⟨m, r, ?_, fun j hj => ?_, fun j hj => ?_⟩
    · rw [loadEvents, State.runEvents_request hv hm rfl hwf hexec, hrun, List.set_set]
    · cases j with
      | zero => exact (hbelow k (by omega)).trans hself
      | succ j =>
        rw [List.getElem?_cons_succ, ← hread j (Nat.lt_of_succ_lt_succ hj), Nat.add_right_comm, Nat.add_assoc]
    · exact (hbelow j (by omega)).trans (hother j (by omega))

/-- Engine `E` as ENCODE leaves it (R101) for the payload `P` in its buffer `m`. -/
def Encoder.started (E : Encoder) (P : List Byte) (m : Memory) : Encoder :=
  { E with
    phase := .acq, len := BitVec.ofNat 8 P.length, idx := 0#8, sub := 0#8, acc := 0#8, status := .none, done := false
    ibuf := m }

/-- SEND (R93) to an idle engine. -/
theorem State.runEvents_send (hv : s.config.valid = true) (hm : s.micro = none) (hE : s.encs[e]? = some E)
    (hidle : E.phase = .idle) (hlen : P.length ≤ 128) :
    ∃ m, State.runEvents (ScriptLine.events s (.send e P)) s
        = some { s with encs := s.encs.set e (E.started P m), response := some 0#32 }
      ∧ ∀ j, j < P.length → m.read j = P[j]? := by
  have hfit : 0 + P.length ≤ 128 := by rwa [Nat.zero_add]
  obtain ⟨m, r, hload, hread, -⟩ := State.runEvents_load rfl hv hm hE hidle hfit
  have hE' : (s.encs.set e { E with ibuf := m })[e]? = some { E with ibuf := m } :=
    List.getElem?_set_self (State.lt_of_enc hE)
  have hconfig : State.config { s with encs := s.encs.set e { E with ibuf := m }, response := r } = s.config :=
    State.config_eq_of_set rfl rfl
  have hfits : (BitVec.ofNat 8 P.length).toNat ≤ 128 := by rwa [octet_ofNat_toNat (by omega)]
  obtain ⟨hstart, -⟩ := encodeStartsEngineOrRejects
    { s with encs := s.encs.set e { E with ibuf := m }, response := r } e (BitVec.ofNat 8 P.length)
  refine ⟨m, ?_, fun j hj => by rw [← hread j hj, Nat.zero_add]⟩
  have hwf : (Instr.encode e (BitVec.ofNat 8 P.length)).wellFormed s.config = true :=
    decide_eq_true (State.lt_of_enc hE)
  rw [← hconfig] at hv hwf
  rw [ScriptLine.events, State.runEvents_append hload, ← List.append_nil (requestEvent ..), ← hconfig,
    State.runEvents_request hv hm rfl hwf (hstart _ hE' hidle hfits), State.runEvents, List.set_set]
  rfl

/-- DECODE of the idle decoder. -/
theorem State.runEvents_decode (hv : s.config.valid = true) (hm : s.micro = none) (hidle : s.dec.phase = .idle)
    (n : Byte) : State.runEvents (ScriptLine.events s (.decode n)) s
      = some { s with dec := Decoder.fresh n, response := some 0#32 } := by
  obtain ⟨hstart, -⟩ := decodeReinitialisesDecoder s n
  rw [ScriptLine.events, ← List.append_nil (requestEvent ..), State.runEvents_request hv hm rfl rfl (hstart hidle)]
  rfl

/-- Delivered octets are appended to RXQ, in order (R108). -/
theorem State.runEvents_link (hv : s.config.valid = true) (hm : s.micro = none) (cs : List Byte) :
    State.runEvents (cs.map .link) s = some { s with rxq := s.rxq ++ cs } := by
  induction cs generalizing s with
  | nil => rw [List.append_nil]; rfl
  | cons c cs ih =>
    have hmove : s.move (.link c) = .next { s with rxq := s.rxq ++ [c] } := linkDeliverAppends s c
    rw [List.map_cons, State.runEvents_cons hv hm hmove,
      ih (s := { s with rxq := s.rxq ++ [c] }) hv hm, List.append_assoc, List.singleton_append]

/-- The first LOOPBACK (R93) delivers all of TXLOG. -/
theorem State.runEvents_loopback (hv : s.config.valid = true) (hm : s.micro = none) :
    State.runEvents (ScriptLine.events s (.loopback 0)) s = some { s with rxq := s.rxq ++ s.txlog } :=
  State.runEvents_link hv hm s.txlog

/-! ## Picking one agent over and over -/

/-- Picking an engine again and again changes that engine, the lock, TXLOG and the count of draws at most. -/
theorem State.runEvents_enc_frame (hv : s.config.valid = true) (hm : s.micro = none) (hE : s.encs[e]? = some E)
    (hrun : State.runEvents (List.replicate k (.enc e d)) s = some t) :
    ∃ n l E' tx, t = { s with draws := n, lock := l, encs := s.encs.set e E', txlog := tx } := by
  induction k generalizing s E with
  | zero =>
    obtain rfl : s = t := Option.some.inj hrun
    exact ⟨s.draws, s.lock, E, s.txlog, by rw [State.encs_set_self hE]⟩
  | succ k ih =>
    by_cases hp : E.phase = .idle
    · rw [List.replicate_succ, State.runEvents_cons hv hm (State.move_enc_of_idle hE hp)] at hrun
      exact ih hv hm hE hrun
    · obtain ⟨n, l, F, out, -, hmove⟩ := State.move_enc_encMove hE hp d
      rw [List.replicate_succ, State.runEvents_cons hv hm hmove] at hrun
      obtain ⟨n', l', F', tx, rfl⟩ := ih
        (s := { s with draws := n, lock := l, encs := s.encs.set e F, txlog := s.txlog ++ out })
        (State.config_valid_of_set hv rfl rfl) hm
        (List.getElem?_set_self (State.lt_of_enc hE)) hrun
      exact ⟨n', l', F', tx, by rw [List.set_set]⟩

/-- Picking an idle engine again and again changes nothing (R120). -/
theorem State.runEvents_enc_idle (hv : s.config.valid = true) (hm : s.micro = none) (hE : s.encs[e]? = some E)
    (hp : E.phase = .idle) (k : Nat) : State.runEvents (List.replicate k (.enc e d)) s = some s := by
  induction k with
  | zero => rfl
  | succ k ih => rw [List.replicate_succ, State.runEvents_cons hv hm (State.move_enc_of_idle hE hp), ih]

/-- RUN ENC of an engine in ACQ on a FREE lock: the frame is emitted, the lock is FREE again and the engine IDLE (R132);
the choices left over are waits. -/
theorem State.runEvents_runEnc (hv : s.config.valid = true) (hm : s.micro = none) (hl : s.lock = .free)
    (hE : s.encs[e]? = some E) (hp : E.phase = .acq) (hP : P.length ≤ 128) (hlen : E.len = BitVec.ofNat 8 P.length)
    (hidx : E.idx = 0#8) (hacc : E.acc = 0#8) (hread : ∀ j, j < P.length → E.ibuf.read j = P[j]?) :
    ∃ n E', E'.phase = .idle ∧ State.runEvents (ScriptLine.events s (.runEnc e)) s
      = some { s with
          draws := n, lock := .free, encs := s.encs.set e E', txlog := s.txlog ++ frame s.ctl P } := by
  obtain ⟨t, F, hrun, htx, hlock, hF, hidle, -⟩ :=
    encoderEmitsTheFrame s e E P LockDraw.allOk hv hm hl hE hp hP hlen hidx hacc hread
  rw [← List.replicate_succ'] at hrun
  obtain ⟨n, l, E', tx, rfl⟩ := State.runEvents_enc_frame hv hm hE hrun
  obtain rfl : E' = F := Option.some.inj ((List.getElem?_set_self (State.lt_of_enc hE)).symm.trans hF)
  obtain rfl : tx = _ := htx
  obtain rfl : l = .free := hlock
  have hbudget : maxEncSteps = (6 + P.length + escapedCount s.ctl P + 1)
      + (256 - P.length - escapedCount s.ctl P) := by
    have := escapedCount_le_length (o := s.ctl) (P := P)
    unfold maxEncSteps
    omega
  refine ⟨n, E', hidle, ?_⟩
  rw [ScriptLine.events, hbudget, ← List.replicate_append_replicate, State.runEvents_append hrun,
    State.runEvents_enc_idle (s := { s with
      draws := n, lock := .free, encs := s.encs.set e E', txlog := s.txlog ++ frame s.ctl P })
      (State.config_valid_of_set hv rfl rfl) hm hF hidle]

/-- Picking the decoder changes its registers, OBUF and RXQ at most, whether it moves or waits. -/
theorem State.move_dec_frame (h : s.move .dec = .next t) :
    ∃ q D m, t = { s with rxq := q, dec := D, obuf := m } := by
  cases hq : s.rxq with
  | nil =>
    rw [State.move_dec_of_nil hq] at h
    cases h
    exact ⟨_, _, _, rfl⟩
  | cons c rest =>
    rw [State.move_dec_of_cons hq] at h
    cases hdec : decode s.config (.dec (decWord s.dec.phase c)) with
    | ok i =>
      rw [State.runFetched_ok hdec] at h
      obtain ⟨_, q, D, m, -, -, rfl⟩ := exec_dec_next (decodeDec_format hdec) h
      exact ⟨q, D, m, rfl⟩
    | error r =>
      rw [State.runFetched_error hdec] at h
      cases h
      exact ⟨_, _, _, rfl⟩

/-- So does picking it again and again. -/
theorem State.runEvents_dec_frame (hv : s.config.valid = true) (hm : s.micro = none)
    (hrun : State.runEvents (List.replicate k .dec) s = some t) :
    ∃ q D m, t = { s with rxq := q, dec := D, obuf := m } := by
  induction k generalizing s with
  | zero =>
    cases hrun
    exact ⟨_, _, _, rfl⟩
  | succ k ih =>
    obtain ⟨u, hmove⟩ := State.move_dec_total s
    rw [List.replicate_succ, State.runEvents_cons hv hm hmove] at hrun
    obtain ⟨q, D, m, rfl⟩ := State.move_dec_frame hmove
    obtain ⟨q', D', m', rfl⟩ := ih (s := { s with rxq := q, dec := D, obuf := m }) hv hm hrun
    exact ⟨q', D', m', rfl⟩

/-- RUN DEC of a decoder in AWAIT_START with room for the payload, on `frame(P)` and nothing more (R164). -/
theorem State.runEvents_runDec (hv : s.config.valid = true) (hm : s.micro = none) (hp : s.dec.phase = .awaitStart)
    (hP : P.length ≤ 128) (hroom : P.length ≤ s.dec.maxlen.toNat) (hq : s.rxq = frame s.ctl P) :
    ∃ D m, State.runEvents (ScriptLine.events s .runDec) s = some { s with rxq := [], dec := D, obuf := m }
      ∧ D.phase = .idle ∧ D.status = .ok ∧ D.rlen.toNat = P.length ∧ ∀ j, j < P.length → m.read j = P[j]? := by
  obtain ⟨t, hrun, hrest, hidle, hstatus, hrlen, hread⟩ :=
    decoderRoundTrip s s.dec.maxlen P [] hv hm hp rfl hP hroom (hq.trans (List.append_nil _).symm)
  obtain ⟨q, D, m, rfl⟩ := State.runEvents_dec_frame hv hm hrun
  obtain rfl : q = [] := hrest
  rw [← hq] at hrun
  exact ⟨D, m, hrun, hidle, hstatus, hrlen, hread⟩

/-! ## The loopback program (R262, R263) -/

/-- The reset state of a configuration is a state of that block (R20). -/
theorem State.resetWith_config (p : Config) : (State.resetWith p).config = p := by
  rw [State.config, State.nEnc_def, State.resetWith, List.length_replicate]

/-- A run has ended well (R262) when one engine and the decoder are IDLE again, and the rest of what R262 asks about
stands as reset left it. -/
theorem State.endedWell_of_reset_set (hes : s.encs = (State.resetWith p).encs.set e E) (hE : E.phase = .idle)
    (hD : s.dec.phase = .idle) (hf : s.faults = FaultSet.empty) (hr : s.refused = false) (hp : s.pending = []) :
    s.endedWell = true := by
  have hencs : ∀ F ∈ s.encs, F.phase = .idle := by
    intro F hF
    rw [hes] at hF
    obtain hF | rfl := List.mem_or_eq_of_mem_set hF
    · rw [List.eq_of_mem_replicate hF]
      rfl
    · exact hE
  have hall : s.encs.all (fun F => !F.busy) = true := List.all_eq_true.2 fun F hF => by
    rw [Bool.eq_false_iff.2 (Encoder.not_busy (hencs F hF))]
    rfl
  rw [State.endedWell, hall, Bool.eq_false_iff.2 (Decoder.not_busy hD), hf, hr, hp]
  rfl

/-- SEND, RUN ENC, LOOPBACK with engine `e` idle and the lock FREE: the frame is emitted, and all of TXLOG received. -/
theorem State.runScript_encode_loopback (hv : s.config.valid = true) (hm : s.micro = none) (hl : s.lock = .free)
    (hE : s.encs[e]? = some E) (hidle : E.phase = .idle) (hP : P.length ≤ 128) (ls : List ScriptLine) :
    ∃ n E', E'.phase = .idle ∧ s.runScript (.send e P :: .runEnc e :: .loopback 0 :: ls)
      = State.runScript ls { s with
          draws := n, lock := .free, encs := s.encs.set e E', txlog := s.txlog ++ frame s.ctl P
          rxq := s.rxq ++ (s.txlog ++ frame s.ctl P), response := some 0#32 } := by
  obtain ⟨m, hsend, hread⟩ := State.runEvents_send hv hm hE hidle hP
  obtain ⟨n, E', hidle', hencode⟩ := State.runEvents_runEnc
    (s := { s with encs := s.encs.set e (E.started P m), response := some 0#32 })
    (State.config_valid_of_set hv rfl rfl) hm hl (List.getElem?_set_self (State.lt_of_enc hE)) rfl hP rfl rfl rfl hread
  rw [List.set_set] at hencode
  have hloop := State.runEvents_loopback
    (s := { s with
      draws := n, lock := .free, encs := s.encs.set e E', txlog := s.txlog ++ frame s.ctl P, response := some 0#32 })
    (State.config_valid_of_set hv rfl rfl) hm
  exact ⟨n, E', hidle', (State.runScript_cons hsend).trans <|
    (State.runScript_cons hencode).trans (State.runScript_cons hloop)⟩

/-- Settles O56: DECODE, the frame emitted and received, and its decode, in turn. -/
theorem loopbackRoundTripFromReset : Obligations.LoopbackRoundTripFromReset := by
  intro p e m P hvalid he hP hroom
  have hv : (State.resetWith p).config.valid = true := by rwa [State.resetWith_config]
  have hE : (State.resetWith p).encs[e]? = some Encoder.reset := List.getElem?_replicate_of_lt he
  have hstart := State.runEvents_decode hv rfl rfl m
  obtain ⟨n, E', hidle, hloop⟩ := State.runScript_encode_loopback
    (s := { State.resetWith p with dec := Decoder.fresh m, response := some 0#32 }) hv rfl rfl hE rfl hP [.runDec]
  obtain ⟨D, obuf, hdec, hDidle, hok, hrlen, hread⟩ := State.runEvents_runDec
    (s := { State.resetWith p with
      dec := Decoder.fresh m, draws := n, encs := (State.resetWith p).encs.set e E', txlog := frame p.octets P
      rxq := frame p.octets P, response := some 0#32 })
    (State.config_valid_of_set hv rfl rfl) rfl rfl hP hroom rfl
  exact ⟨_, (State.runScript_cons hstart).trans (hloop.trans (State.runScript_cons hdec)),
    rfl, rfl, hok, hrlen, hread, State.endedWell_of_reset_set rfl hidle hDidle rfl rfl rfl⟩

end Sys2Proof.Machine
